-- ==== Sys2Proof/Word.lean ====
section
/-! DEFINITION. The two data widths of the core (00_scope.md R5): the 32-bit memory word and the
16-bit register pattern. -/

namespace Sys2Proof

/-- A word: one memory cell and one instruction (20_memory.md R50, 30_encoding.md R80). -/
abbrev Word := BitVec 32

/-- The contents of a general register, a 16-bit pattern (10_state.md R20). -/
abbrev Half := BitVec 16

end Sys2Proof
end

