-- ==== Sys2Proof/Config.lean ====
section
/-! DEFINITION. The parameters of the core (00_scope.md R5) and the one value the spec leaves open
(a free value). A `Config` is carried by the state and never written, so that one step function
serves every choice of the parameters (assumption 3). -/

namespace Sys2Proof

/-- The contents of the four general registers (10_state.md R20). -/
structure Regs where
  r0 : Half
  r1 : Half
  r2 : Half
  r3 : Half
  deriving DecidableEq, Repr

/-- The four status flags (10_state.md R23): Carry, Zero, Negative and Overflow. -/
structure Flags where
  c : Bool
  z : Bool
  n : Bool
  v : Bool
  deriving DecidableEq, Repr

/-- `CMP_CARRY_MODE` (45_compare_misc.md R220, D18). -/
inductive CarryMode where
  /-- Carry is written with the condition of Negative. -/
  | asNegative
  /-- Carry is the borrow of the unsigned comparison. -/
  | unsignedBorrow
  deriving DecidableEq, Repr

/-- The parameters of 00_scope.md R5. -/
structure Config where
  /-- `MEM_SIZE`, the number of word addresses. -/
  memSize : Nat
  /-- `STACK_SIZE`, the number of stack slots at the top of memory. -/
  stackSize : Nat
  /-- `CMP_CARRY_MODE`. -/
  cmpCarry : CarryMode
  /-- `RESET_GPR`, the unspecified contents of the registers after reset. -/
  resetGpr : Regs
  /-- `RESET_FLAGS`, the unspecified flags after reset. -/
  resetFlags : Flags
  deriving DecidableEq, Repr

/-- `STACK_BASE = MEM_SIZE - STACK_SIZE`, the lowest stack address (R5, 20_memory.md R51). -/
def Config.stackBase (c : Config) : Nat := c.memSize - c.stackSize

/-- `1 <= STACK_SIZE < MEM_SIZE <= 2^32` (00_scope.md R5, D39). -/
abbrev Config.Valid (c : Config) : Prop :=
  1 ≤ c.stackSize ∧ c.stackSize < c.memSize ∧ c.memSize ≤ 2 ^ 32

/-- The defaults of 00_scope.md R5. DESIGN CHOICE, unsafe: the spec gives `RESET_GPR` and
`RESET_FLAGS` no value, and this configuration names 0 for each of them (assumption 2). -/
def Config.default : Config where
  memSize := 1000
  stackSize := 100
  cmpCarry := .asNegative
  resetGpr := ⟨0, 0, 0, 0⟩
  resetFlags := ⟨false, false, false, false⟩

/-- The word that `zext_32` gives for a number that does not fit 32 bits. DESIGN CHOICE, safe: the
spec states none, so it is a free value (assumption 6). -/
opaque Config.zext32Outside : Nat → Word

end Sys2Proof
end

