-- ==== Sys2Proof/Syntax.lean ====
section
/-! DEFINITION. The instructions of the core (30_encoding.md R95), one constructor for each row of
spec/opcode_table.json, with the operands of its format (R86). -/

namespace Sys2Proof

/-- A general register (10_state.md R20), as a register field names it (30_encoding.md R84). -/
inductive Reg where
  | r0
  | r1
  | r2
  | r3
  deriving DecidableEq, Repr

/-- An instruction. Register operands stand in the order of the fields `ra`, `rb`, `rc`; an address
operand is an unsigned word address (R85); `WellFormed` says which addresses the format can hold. -/
inductive Instr where
  | nop (tag : BitVec 6) (pay : BitVec 21)
  | load (ra : Reg) (a25 : Nat)
  | store (ra : Reg) (a25 : Nat)
  | move (ra rb : Reg)
  | add (ra rb rc : Reg)
  | sub (ra rb rc : Reg)
  | mul (ra rb rc : Reg)
  | div (ra rb rc : Reg)
  | and (ra rb rc : Reg)
  | or (ra rb rc : Reg)
  | nor (ra rb rc : Reg)
  | not (ra : Reg)
  | shl (ra rb : Reg)
  | shr (ra rb : Reg)
  | rol (ra rb : Reg)
  | ror (ra rb : Reg)
  | jump (a27 : Nat)
  | beq (a27 : Nat)
  | bne (ra rb : Reg) (a23 : Nat)
  | blt (ra rb : Reg) (a23 : Nat)
  | jle (ra rb : Reg) (a23 : Nat)
  | push (ra : Reg)
  | pop (ra : Reg)
  | call (a27 : Nat)
  | ret
  | inp (ra : Reg)
  | out (ra : Reg)
  | cmp (ra rb : Reg)
  | clr (ra : Reg)
  | loadr (ra rb : Reg)
  | storer (ra : Reg) (a25 : Nat)
  | halt
  deriving DecidableEq, Repr

end Sys2Proof
end

