-- ==== Sys2Proof/Machine/State.lean ====
section
/-! DEFINITION. The state of the machine (10_state.md, head of the file), the errors it reports
(60_exceptions.md R240) and the state after reset (R34). -/

namespace Sys2Proof.Machine

/-- The mode in which the host has a Step performed (40_engine.md R112). -/
inductive RunMode where
  /-- By `step()`. -/
  | step
  /-- Inside `run_to_halt_or_input()`. -/
  | run
  deriving DecidableEq, Repr

/-- The engine's run state (10_state.md R29). -/
inductive RunState where
  | running
  /-- Suspended at an IN that names register `r`, met in mode `mode`. -/
  | awaitingInput (r : Reg) (mode : RunMode)
  | halted
  deriving DecidableEq, Repr

/-- A decoded typed immediate (30_encoding.md R89, R90). A Float keeps its payload, whose value R91
gives (`floatValue` in Machine/Codec.lean). -/
inductive TypedValue where
  | boolean (b : Bool)
  | natural (n : Nat)
  | integer (i : Int)
  | float (pay : BitVec 21)
  | char (c : Nat)
  deriving DecidableEq, Repr

/-- What a Step hands to the host (40_engine.md R118). -/
inductive Event where
  | out (v : Int)
  | literal (tv : TypedValue)
  deriving DecidableEq, Repr

/-- One memory cell that holds a word other than 0: its word address and the word. -/
abbrev Cell := Nat × Word

/-- Memory (10_state.md R31): the cells that do not hold 0, by strictly rising address. An address
that is not listed reads 0, as the spec says of every address with no stored value (20_memory.md
R52). The cells are words: the memory has no bytes (R59; assumption 1). -/
abbrev Memory := List Cell

/-- The error kinds with the info each records (60_exceptions.md R240). An error changes nothing
(R243) and is a fault outcome of the Step (R248). Safe: the hardware reports the same error. -/
inductive Fault where
  /-- Raised by nothing: every opcode is defined (R240, 90_conflicts.md C1). Safe. -/
  | unknownOpcode
  /-- Raised by the host operations `read_register` and `provide_input` (R240). Safe. -/
  | invalidRegisterIndex (i : Int)
  /-- Raised by every memory access and every next pc at or above `MEM_SIZE` (R240). Safe. -/
  | addressOutOfRange (a : Nat)
  /-- Raised by PUSH and CALL when `SP = MEM_SIZE` (R240). Safe. -/
  | stackFull
  /-- Raised by POP and RET when `SP = STACK_BASE` (R240). Safe. -/
  | stackEmpty
  /-- Raised by DIV when the divisor register holds 0 (R240). Safe. -/
  | divisionByZero
  /-- Raised by NOP, and by LOAD of a typed literal (R240). Safe. -/
  | invalidEncoding (tag : BitVec 6) (pay : BitVec 21)
  /-- Raised by STORE, STORER and `load_image` into the stack region (R240). Safe. -/
  | stackRegionViolation (a : Nat)
  deriving DecidableEq, Repr

/-- Why a step has no meaning. -/
inductive Refusal where
  /-- Raised by an arm of `exec` whose instruction has no meaning yet; none is left. Safe. -/
  | notModelled (mnemonic : String)
  /-- Raised by `step` in state Halted or AwaitingInput, where a Step does nothing and the answer is
  `NotRunning(run)` (40_engine.md R115). Safe. -/
  | notRunning (run : RunState)
  deriving DecidableEq, Repr

/-- The state: the spec's tuple (10_state.md), then three fields of the model's own. -/
structure State where
  /-- The general registers (R20). -/
  regs : Regs
  /-- The flags C, Z, N and V (R23). -/
  flags : Flags
  /-- The program counter, the address of the next instruction to fetch (R25). -/
  pc : Nat
  /-- The stack pointer, the address of the next free stack slot (R27). -/
  sp : Nat
  /-- The memory (R31). -/
  mem : Memory
  /-- The run state (R29). -/
  run : RunState
  /-- The model's own: the argument `mode` of the Step under way (40_engine.md R112; assumption 4). -/
  mode : RunMode
  /-- The model's own: the events emitted so far, oldest first (40_engine.md R118; assumption 5). -/
  events : List Event
  /-- The model's own: the parameters of 00_scope.md R5, which nothing writes (assumption 3). -/
  cfg : Config
  deriving DecidableEq, Repr

/-- The table of 10_state.md R34, for any choice of the parameters. -/
def State.ofConfig (c : Config) : State where
  regs := c.resetGpr
  flags := c.resetFlags
  pc := 0
  sp := c.stackBase
  mem := []
  run := .running
  mode := .step
  events := []
  cfg := c

/-- The machine right after reset (70_reset_and_hazards.md R270) with the default parameters. The
registers and flags are the values assumption 2 names. -/
def State.reset : State := State.ofConfig Config.default

/-- The three outcomes of a step of this machine. -/
abbrev Result := Host.Outcome State Fault Refusal

end Sys2Proof.Machine
end

