-- ==== Sys2Proof/Machine/Operands.lean ====
section
/-! DEFINITION. Conversions between register patterns, integers and memory words, and the operands
that instructions take from them (00_scope.md R9). -/

namespace Sys2Proof.Machine

/-- `s16(v)`, the signed value of a register pattern (R9, R10). -/
def s16 (v : Half) : Int := v.toInt

/-- `u16(n)`, the register pattern of an integer, `n mod 2^16` (R9). -/
def u16 (n : Int) : Half := BitVec.ofInt 16 n

/-- `sext_32(v)`, the word a register value is stored as (43_data_movement.md R185). -/
def sext32 (v : Half) : Word := v.signExtend 32

/-- `w[15:0]`, the register pattern of a raw word (43_data_movement.md R180, R185). -/
def low16 (w : Word) : Half := w.setWidth 16

/-- `zext_32(n)`, the word that CALL pushes (42_control_flow.md R165). Where `n` does not fit 32 bits
the spec states no word and the value is free (assumption 6). -/
def zext32 (n : Nat) : Word :=
  if n < 2 ^ 32 then BitVec.ofNat 32 n else Config.zext32Outside n

/-- `v[3:0]`, the amount of a shift or rotate (41_arith_logic.md R138). -/
def shiftAmount (v : Half) : Nat := v.toNat % 16

/-- The quotient truncated toward zero, `a div_t b` (41_arith_logic.md R133). -/
def divT (a b : Int) : Int := Int.tdiv a b

/-- SHL's result (41_arith_logic.md R138). -/
def shiftLeft (v : Half) (n : Nat) : Half := BitVec.ofNat 16 (v.toNat <<< n)

/-- SHR's result, a logical shift (41_arith_logic.md R139). -/
def shiftRight (v : Half) (n : Nat) : Half := BitVec.ofNat 16 (v.toNat >>> n)

/-- ROL's result, `(v<<n | v>>(16-n)) mod 2^16` (41_arith_logic.md R140). -/
def rotLeft (v : Half) (n : Nat) : Half :=
  BitVec.ofNat 16 ((v.toNat <<< n) ||| (v.toNat >>> (16 - n)))

/-- ROR's result, `(v>>n | v<<(16-n)) mod 2^16` (41_arith_logic.md R141). -/
def rotRight (v : Half) (n : Nat) : Half :=
  BitVec.ofNat 16 ((v.toNat >>> n) ||| (v.toNat <<< (16 - n)))

end Sys2Proof.Machine
end

