-- ==== Sys2Proof/Machine/Flags.lean ====
section
/-! DEFINITION. Every flag computation of the spec (10_state.md R24). A flag an instruction does not
write keeps its value (R23). -/

namespace Sys2Proof.Machine

/-- The 16-bit result is 0: the Zero condition of ADD, SUB, MUL and DIV (41_arith_logic.md, D14). -/
def zeroResult (res : Half) : Bool := decide (res = 0)

/-- The exact value is outside -32768..32767: the Overflow condition of ADD and CMP. -/
def outside16 (n : Int) : Bool := decide (n < -2 ^ 15 ∨ n > 2 ^ 15 - 1)

/-- ADD writes Z, C and V (41_arith_logic.md R130). -/
def addFlags (f : Flags) (a b : Half) : Flags :=
  { f with
    z := zeroResult (u16 (s16 a + s16 b))
    c := decide (a.toNat + b.toNat ≥ 2 ^ 16)
    v := outside16 (s16 a + s16 b) }

/-- SUB writes Z and N, N from the exact difference (41_arith_logic.md R131). -/
def subFlags (f : Flags) (a b : Half) : Flags :=
  { f with
    z := zeroResult (u16 (s16 a - s16 b))
    n := decide (s16 a - s16 b < 0) }

/-- MUL writes Z, C and V, C and V at the threshold `2^21 - 1` (41_arith_logic.md R132). -/
def mulFlags (f : Flags) (a b : Half) : Flags :=
  { f with
    z := zeroResult (u16 (s16 a * s16 b))
    c := decide ((s16 a * s16 b).natAbs > 2 ^ 21 - 1)
    v := decide ((s16 a * s16 b).natAbs > 2 ^ 21 - 1) }

/-- DIV writes Z (41_arith_logic.md R133). -/
def divFlags (f : Flags) (a b : Half) : Flags :=
  { f with z := zeroResult (u16 (divT (s16 a) (s16 b))) }

/-- BNE, BLT and JLE write N and Z from the exact difference (42_control_flow.md R162 to R164). -/
def branchFlags (f : Flags) (a b : Half) : Flags :=
  { f with
    n := decide (s16 a - s16 b < 0)
    z := decide (s16 a - s16 b = 0) }

/-- CMP's Carry, by `CMP_CARRY_MODE` (45_compare_misc.md R220). -/
def cmpCarry (mode : CarryMode) (a b : Half) : Bool :=
  match mode with
  | .asNegative => decide (s16 a - s16 b < 0)
  | .unsignedBorrow => decide (a.toNat < b.toNat)

/-- CMP writes Z, N, C and V from the exact difference (45_compare_misc.md R220). -/
def cmpFlags (mode : CarryMode) (a b : Half) : Flags where
  c := cmpCarry mode a b
  z := decide (s16 a - s16 b = 0)
  n := decide (s16 a - s16 b < 0)
  v := outside16 (s16 a - s16 b)

end Sys2Proof.Machine
end

