-- ==== Sys2Proof/Machine/Ops.lean ====
section
/-! DEFINITION. The named operations over the state: registers, memory, the stack, the report of an
error and the end of a Step. -/

namespace Sys2Proof.Machine

/-! ### Updates of one piece of state -/

/-- `x[i]` of a register bank (10_state.md R20, R21). -/
def regGet (b : Regs) : Reg → Half
  | .r0 => b.r0
  | .r1 => b.r1
  | .r2 => b.r2
  | .r3 => b.r3

/-- A register bank after `x[i] <- v` (10_state.md R20, R21). -/
def regSet (b : Regs) (i : Reg) (v : Half) : Regs :=
  match i with
  | .r0 => { b with r0 := v }
  | .r1 => { b with r1 := v }
  | .r2 => { b with r2 := v }
  | .r3 => { b with r3 := v }

/-- `x[i]` (00_scope.md R9). -/
def State.reg (s : State) (i : Reg) : Half := regGet s.regs i

/-- `x[i] <- v` (00_scope.md R9). -/
def State.setReg (s : State) (i : Reg) (v : Half) : State := { s with regs := regSet s.regs i v }

/-- The four flags written together. -/
def State.setFlags (s : State) (f : Flags) : State := { s with flags := f }

/-- `pc <- a`. -/
def State.setPc (s : State) (a : Nat) : State := { s with pc := a }

/-- `SP <- a`. -/
def State.setSp (s : State) (a : Nat) : State := { s with sp := a }

/-- The memory replaced. -/
def State.setMem (s : State) (m : Memory) : State := { s with mem := m }

/-- `run <- r`. -/
def State.setRun (s : State) (r : RunState) : State := { s with run := r }

/-- The mode of the Step about to be performed (40_engine.md R112). -/
def State.setMode (s : State) (m : RunMode) : State := { s with mode := m }

/-- `emit ev` (40_engine.md R118). -/
def State.emit (s : State) (ev : Event) : State := { s with events := s.events ++ [ev] }

/-! ### Memory -/

/-- The word at an address; 0 where no cell is listed (20_memory.md R52). -/
def memGet : Memory → Nat → Word
  | [], _ => 0
  | (b, w) :: m, a => if a = b then w else memGet m a

/-- The cells of a memory without the one at an address. -/
def memErase (m : Memory) (a : Nat) : Memory := m.filter (fun c => c.1 != a)

/-- A cell put before the first one of a larger address. -/
def memInsert : Memory → Nat → Word → Memory
  | [], a, v => [(a, v)]
  | (b, w) :: m, a, v => if a < b then (a, v) :: (b, w) :: m else (b, w) :: memInsert m a v

/-- The memory after `M[a] <- v`; a 0 frees the cell, which is not observable (20_memory.md R53). -/
def memSet (m : Memory) (a : Nat) (v : Word) : Memory :=
  if v = 0 then memErase m a else memInsert (memErase m a) a v

/-- The canonical form: addresses strictly rising, and no cell that holds 0. -/
def Memory.wf : Memory → Bool
  | [] => true
  | [(_, w)] => decide (w ≠ 0)
  | (a, w) :: (b, u) :: m => decide (w ≠ 0) && decide (a < b) && Memory.wf ((b, u) :: m)

/-- `MemRead(addr, 1)` (20_memory.md R52). -/
def State.memRead (s : State) (a : Nat) : Except Fault Word :=
  if s.cfg.memSize ≤ a then .error (.addressOutOfRange a) else .ok (memGet s.mem a)

/-- `MemWrite(addr, 1, v)`, the ordinary write (20_memory.md R53). -/
def State.memWrite (s : State) (a : Nat) (v : Word) : Except Fault State :=
  if s.cfg.memSize ≤ a then .error (.addressOutOfRange a)
  else if s.cfg.stackBase ≤ a then .error (.stackRegionViolation a)
  else .ok (s.setMem (memSet s.mem a v))

/-- `Push(v)` (20_memory.md R56). -/
def State.push (s : State) (v : Word) : Except Fault State :=
  if s.sp = s.cfg.memSize then .error .stackFull
  else .ok ((s.setMem (memSet s.mem s.sp v)).setSp (s.sp + 1))

/-- `Pop()`: the popped word and the state after it (20_memory.md R57). -/
def State.pop (s : State) : Except Fault (Word × State) :=
  if s.sp = s.cfg.stackBase then .error .stackEmpty
  else .ok (memGet s.mem (s.sp - 1), (s.setMem (memSet s.mem (s.sp - 1) 0)).setSp (s.sp - 1))

/-! ### Errors and the end of a Step -/

/-- `raise E(info)`, the one operation by which an instruction reports an error. The core has no trap
entry: nothing is saved, no mode changes, no vector is taken, and nothing at all is committed, so the
outcome carries only the kind and its info (60_exceptions.md R243, R245, R248). There is no return
from a trap either (R246). -/
def raise (e : Fault) : Result := .fault e

/-- An operation that may raise, and what the handler does with its result. -/
def attempt {α : Type} (x : Except Fault α) (k : α → Result) : Result :=
  match x with
  | .ok a => k a
  | .error e => raise e

/-- The end of a Step whose handler stays Running: the check of the next pc, then the commit
(40_engine.md R112, 10_state.md R26). `s` is the handler's copy. -/
def commit (next : Nat) (s : State) : Result :=
  if s.cfg.memSize ≤ next then raise (.addressOutOfRange next) else .next (s.setPc next)

/-- The default end of a Step, `next <- pc + 1` (40_engine.md R112). -/
def advance (s : State) : Result := commit (s.pc + 1) s

/-- The word at `pc` (40_engine.md R111). -/
def fetch (s : State) : Except Fault Word := s.memRead s.pc

end Sys2Proof.Machine
end

