-- ==== Sys2Proof/Machine/Alu.lean ====
section
/-! DEFINITION. The arithmetic and logic instructions (41_arith_logic.md). -/

namespace Sys2Proof.Machine

/-- ADD (R130). -/
def execAdd (ra rb rc : Reg) (s : State) : Result :=
  advance ((s.setReg rc (u16 (s16 (s.reg ra) + s16 (s.reg rb)))).setFlags
    (addFlags s.flags (s.reg ra) (s.reg rb)))

/-- SUB (R131). -/
def execSub (ra rb rc : Reg) (s : State) : Result :=
  advance ((s.setReg rc (u16 (s16 (s.reg ra) - s16 (s.reg rb)))).setFlags
    (subFlags s.flags (s.reg ra) (s.reg rb)))

/-- MUL (R132). -/
def execMul (ra rb rc : Reg) (s : State) : Result :=
  advance ((s.setReg rc (u16 (s16 (s.reg ra) * s16 (s.reg rb)))).setFlags
    (mulFlags s.flags (s.reg ra) (s.reg rb)))

/-- DIV (R133). -/
def execDiv (ra rb rc : Reg) (s : State) : Result :=
  if s16 (s.reg rb) = 0 then raise .divisionByZero
  else advance ((s.setReg rc (u16 (divT (s16 (s.reg ra)) (s16 (s.reg rb))))).setFlags
    (divFlags s.flags (s.reg ra) (s.reg rb)))

/-- AND (R134). -/
def execAnd (ra rb rc : Reg) (s : State) : Result :=
  advance (s.setReg rc (s.reg ra &&& s.reg rb))

/-- OR (R135). -/
def execOr (ra rb rc : Reg) (s : State) : Result :=
  advance (s.setReg rc (s.reg ra ||| s.reg rb))

/-- NOR (R136). -/
def execNor (ra rb rc : Reg) (s : State) : Result :=
  advance (s.setReg rc (~~~(s.reg ra ||| s.reg rb)))

/-- NOT (R137). -/
def execNot (ra : Reg) (s : State) : Result :=
  advance (s.setReg ra (~~~(s.reg ra)))

/-- SHL (R138). -/
def execShl (ra rb : Reg) (s : State) : Result :=
  advance (s.setReg ra (shiftLeft (s.reg ra) (shiftAmount (s.reg rb))))

/-- SHR (R139). -/
def execShr (ra rb : Reg) (s : State) : Result :=
  advance (s.setReg ra (shiftRight (s.reg ra) (shiftAmount (s.reg rb))))

/-- ROL (R140). -/
def execRol (ra rb : Reg) (s : State) : Result :=
  advance (s.setReg ra (rotLeft (s.reg ra) (shiftAmount (s.reg rb))))

/-- ROR (R141). -/
def execRor (ra rb : Reg) (s : State) : Result :=
  advance (s.setReg ra (rotRight (s.reg ra) (shiftAmount (s.reg rb))))

end Sys2Proof.Machine
end

