-- ==== Sys2Proof/Machine/Control.lean ====
section
/-! DEFINITION. The control transfer instructions (42_control_flow.md). -/

namespace Sys2Proof.Machine

/-- JUMP (R160). -/
def execJump (a27 : Nat) (s : State) : Result := commit a27 s

/-- BEQ (R161). -/
def execBeq (a27 : Nat) (s : State) : Result :=
  commit (if s.flags.z then a27 else s.pc + 1) s

/-- What BNE, BLT and JLE share: the exact signed difference writes N and Z, taken or not, and
`taken` of it chooses the next pc (R162 to R164). -/
def compareBranch (taken : Int → Bool) (ra rb : Reg) (a23 : Nat) (s : State) : Result :=
  commit (if taken (s16 (s.reg ra) - s16 (s.reg rb)) then a23 else s.pc + 1)
    (s.setFlags (branchFlags s.flags (s.reg ra) (s.reg rb)))

/-- BNE (R162). -/
def execBne (ra rb : Reg) (a23 : Nat) (s : State) : Result :=
  compareBranch (fun d => decide (d ≠ 0)) ra rb a23 s

/-- BLT (R163). -/
def execBlt (ra rb : Reg) (a23 : Nat) (s : State) : Result :=
  compareBranch (fun d => decide (d < 0)) ra rb a23 s

/-- JLE (R164). -/
def execJle (ra rb : Reg) (a23 : Nat) (s : State) : Result :=
  compareBranch (fun d => decide (d ≤ 0)) ra rb a23 s

/-- CALL (R165). -/
def execCall (a27 : Nat) (s : State) : Result :=
  attempt (s.push (zext32 (s.pc + 1))) fun t => commit a27 t

/-- RET (R166). -/
def execRet (s : State) : Result :=
  attempt s.pop fun p => commit p.1.toNat p.2

end Sys2Proof.Machine
end

