-- ==== Sys2Proof/WellFormed.lean ====
section
/-! DEFINITION. Which instructions have an encoding: an address operand must fit the address field of
its format (30_encoding.md R85, R86). Every other operand fits its field by its type. -/

namespace Sys2Proof

/-- The instruction's operands fit the fields of its format. -/
def Instr.wellFormed : Instr → Bool
  | .load _ a25 => decide (a25 < 2 ^ 25)
  | .store _ a25 => decide (a25 < 2 ^ 25)
  | .storer _ a25 => decide (a25 < 2 ^ 25)
  | .jump a27 => decide (a27 < 2 ^ 27)
  | .beq a27 => decide (a27 < 2 ^ 27)
  | .call a27 => decide (a27 < 2 ^ 27)
  | .bne _ _ a23 => decide (a23 < 2 ^ 23)
  | .blt _ _ a23 => decide (a23 < 2 ^ 23)
  | .jle _ _ a23 => decide (a23 < 2 ^ 23)
  | .nop _ _ => true
  | .move _ _ => true
  | .add _ _ _ => true
  | .sub _ _ _ => true
  | .mul _ _ _ => true
  | .div _ _ _ => true
  | .and _ _ _ => true
  | .or _ _ _ => true
  | .nor _ _ _ => true
  | .not _ => true
  | .shl _ _ => true
  | .shr _ _ => true
  | .rol _ _ => true
  | .ror _ _ => true
  | .push _ => true
  | .pop _ => true
  | .ret => true
  | .inp _ => true
  | .out _ => true
  | .cmp _ _ => true
  | .clr _ => true
  | .loadr _ _ => true
  | .halt => true

end Sys2Proof
end

