-- ==== Sys2Proof/Decode.lean ====
section
/-! DEFINITION. The instruction decoder and, after it, the encoder (30_encoding.md R80 to R87, R95).
Decoding is total: every 32-bit word is one of the 32 instructions, so no word is refused (R82, R96). -/

namespace Sys2Proof

/-- `w[hi:lo]`, the unsigned integer made of bits `hi` down to `lo` (00_scope.md R8). -/
def slice (w : Word) (hi lo : Nat) : Nat := w.toNat / 2 ^ lo % 2 ^ (hi + 1 - lo)

/-- The closed set of opcodes (30_encoding.md R95). -/
inductive Opcode where
  | nop | load | store | move | add | sub | mul | div
  | and | or | nor | not | shl | shr | rol | ror
  | jump | beq | bne | blt | jle | push | pop | call
  | ret | inp | out | cmp | clr | loadr | storer | halt
  deriving DecidableEq, Repr

/-- The opcode map of R95, from the value of `w[31:27]`; the field has five bits, so the last arm is
the value 31, HALT (90_conflicts.md C1). -/
def Opcode.ofNumber : Nat → Opcode
  | 0 => .nop | 1 => .load | 2 => .store | 3 => .move
  | 4 => .add | 5 => .sub | 6 => .mul | 7 => .div
  | 8 => .and | 9 => .or | 10 => .nor | 11 => .not
  | 12 => .shl | 13 => .shr | 14 => .rol | 15 => .ror
  | 16 => .jump | 17 => .beq | 18 => .bne | 19 => .blt
  | 20 => .jle | 21 => .push | 22 => .pop | 23 => .call
  | 24 => .ret | 25 => .inp | 26 => .out | 27 => .cmp
  | 28 => .clr | 29 => .loadr | 30 => .storer | _ => .halt

/-- The opcode map of R95, read the other way. -/
def Opcode.number : Opcode → Nat
  | .nop => 0 | .load => 1 | .store => 2 | .move => 3
  | .add => 4 | .sub => 5 | .mul => 6 | .div => 7
  | .and => 8 | .or => 9 | .nor => 10 | .not => 11
  | .shl => 12 | .shr => 13 | .rol => 14 | .ror => 15
  | .jump => 16 | .beq => 17 | .bne => 18 | .blt => 19
  | .jle => 20 | .push => 21 | .pop => 22 | .call => 23
  | .ret => 24 | .inp => 25 | .out => 26 | .cmp => 27
  | .clr => 28 | .loadr => 29 | .storer => 30 | .halt => 31

/-- The register a 2-bit field names (R84); the field has two bits, so the last arm is 3. -/
def Reg.ofNumber : Nat → Reg
  | 0 => .r0
  | 1 => .r1
  | 2 => .r2
  | _ => .r3

/-- The index 0..3 of a register (R84). -/
def Reg.number : Reg → Nat
  | .r0 => 0
  | .r1 => 1
  | .r2 => 2
  | .r3 => 3

/-- The decoder's outputs: every field of every format, extracted unconditionally (R83). -/
structure Fields where
  op : Opcode
  ra : Reg
  rb : Reg
  rc : Reg
  a27 : Nat
  a25 : Nat
  a23 : Nat
  tag : BitVec 6
  pay : BitVec 21
  deriving DecidableEq, Repr

/-- The bits each output is made of (R81, R83, R84, R85). -/
def fieldsOf (w : Word) : Fields where
  op := Opcode.ofNumber (slice w 31 27)
  ra := Reg.ofNumber (slice w 26 25)
  rb := Reg.ofNumber (slice w 24 23)
  rc := Reg.ofNumber (slice w 22 21)
  a27 := slice w 26 0
  a25 := slice w 24 0
  a23 := slice w 22 0
  tag := BitVec.ofNat 6 (slice w 26 21)
  pay := BitVec.ofNat 21 (slice w 20 0)

/-- The operands each opcode takes from the fields, by its format (R86, R95). Bits outside the
format's fields are ignored (R87). -/
def Fields.instr (f : Fields) : Instr :=
  match f.op with
  | .nop => .nop f.tag f.pay
  | .load => .load f.ra f.a25
  | .store => .store f.ra f.a25
  | .move => .move f.ra f.rb
  | .add => .add f.ra f.rb f.rc
  | .sub => .sub f.ra f.rb f.rc
  | .mul => .mul f.ra f.rb f.rc
  | .div => .div f.ra f.rb f.rc
  | .and => .and f.ra f.rb f.rc
  | .or => .or f.ra f.rb f.rc
  | .nor => .nor f.ra f.rb f.rc
  | .not => .not f.ra
  | .shl => .shl f.ra f.rb
  | .shr => .shr f.ra f.rb
  | .rol => .rol f.ra f.rb
  | .ror => .ror f.ra f.rb
  | .jump => .jump f.a27
  | .beq => .beq f.a27
  | .bne => .bne f.ra f.rb f.a23
  | .blt => .blt f.ra f.rb f.a23
  | .jle => .jle f.ra f.rb f.a23
  | .push => .push f.ra
  | .pop => .pop f.ra
  | .call => .call f.a27
  | .ret => .ret
  | .inp => .inp f.ra
  | .out => .out f.ra
  | .cmp => .cmp f.ra f.rb
  | .clr => .clr f.ra
  | .loadr => .loadr f.ra f.rb
  | .storer => .storer f.ra f.a25
  | .halt => .halt

/-- The decoder, a pure total function of the word (R82). -/
def decode (w : Word) : Instr := (fieldsOf w).instr

/-- The instruction of an opcode-table row whose bits are `w`: one word, so at most 32 bits (R80). -/
def decodeTableWord (nbits w : Nat) : Option Instr :=
  if nbits ≤ 32 then some (decode (BitVec.ofNat 32 (w % 2 ^ nbits))) else none

/-! ### The encoder: assembly of a word from its fields (R86), zeros in the unused bits (R87) -/

/-- `{op:5, area:27}`. -/
def pack (op : Opcode) (area : Nat) : Word := BitVec.ofNat 32 (op.number * 2 ^ 27 + area % 2 ^ 27)

/-- Operand area of format IMM. -/
def areaIMM (tag : BitVec 6) (pay : BitVec 21) : Nat := tag.toNat * 2 ^ 21 + pay.toNat

/-- Operand area of format RA25. -/
def areaRA25 (ra : Reg) (a25 : Nat) : Nat := ra.number * 2 ^ 25 + a25 % 2 ^ 25

/-- Operand area of format RR. -/
def areaRR (ra rb : Reg) : Nat := ra.number * 2 ^ 25 + rb.number * 2 ^ 23

/-- Operand area of format RRR. -/
def areaRRR (ra rb rc : Reg) : Nat :=
  ra.number * 2 ^ 25 + rb.number * 2 ^ 23 + rc.number * 2 ^ 21

/-- Operand area of format R. -/
def areaR (ra : Reg) : Nat := ra.number * 2 ^ 25

/-- Operand area of format RRA23. -/
def areaRRA23 (ra rb : Reg) (a23 : Nat) : Nat :=
  ra.number * 2 ^ 25 + rb.number * 2 ^ 23 + a23 % 2 ^ 23

/-- The word of an instruction. -/
def encode : Instr → Word
  | .nop tag pay => pack .nop (areaIMM tag pay)
  | .load ra a25 => pack .load (areaRA25 ra a25)
  | .store ra a25 => pack .store (areaRA25 ra a25)
  | .move ra rb => pack .move (areaRR ra rb)
  | .add ra rb rc => pack .add (areaRRR ra rb rc)
  | .sub ra rb rc => pack .sub (areaRRR ra rb rc)
  | .mul ra rb rc => pack .mul (areaRRR ra rb rc)
  | .div ra rb rc => pack .div (areaRRR ra rb rc)
  | .and ra rb rc => pack .and (areaRRR ra rb rc)
  | .or ra rb rc => pack .or (areaRRR ra rb rc)
  | .nor ra rb rc => pack .nor (areaRRR ra rb rc)
  | .not ra => pack .not (areaR ra)
  | .shl ra rb => pack .shl (areaRR ra rb)
  | .shr ra rb => pack .shr (areaRR ra rb)
  | .rol ra rb => pack .rol (areaRR ra rb)
  | .ror ra rb => pack .ror (areaRR ra rb)
  | .jump a27 => pack .jump a27
  | .beq a27 => pack .beq a27
  | .bne ra rb a23 => pack .bne (areaRRA23 ra rb a23)
  | .blt ra rb a23 => pack .blt (areaRRA23 ra rb a23)
  | .jle ra rb a23 => pack .jle (areaRRA23 ra rb a23)
  | .push ra => pack .push (areaR ra)
  | .pop ra => pack .pop (areaR ra)
  | .call a27 => pack .call a27
  | .ret => pack .ret 0
  | .inp ra => pack .inp (areaR ra)
  | .out ra => pack .out (areaR ra)
  | .cmp ra rb => pack .cmp (areaRR ra rb)
  | .clr ra => pack .clr (areaR ra)
  | .loadr ra rb => pack .loadr (areaRR ra rb)
  | .storer ra a25 => pack .storer (areaRA25 ra a25)
  | .halt => pack .halt 0

end Sys2Proof
end

