-- ==== Sys2Proof/Machine/Codec.lean ====
section
/-! DEFINITION. The Typed-Value Codec (30_encoding.md R88 to R94). -/

namespace Sys2Proof.Machine

/-- `DecodeTyped(tag, pay)` (R90). -/
def decodeTyped (tag : BitVec 6) (pay : BitVec 21) : Except Fault TypedValue :=
  match tag.toNat with
  | 1 => .ok (.boolean (decide (pay ≠ 0)))
  | 2 => .ok (.natural pay.toNat)
  | 3 => .ok (.integer pay.toInt)
  | 4 => .ok (.float pay)
  | 5 => if pay.toNat > 0x10FFFF then .error (.invalidEncoding tag pay) else .ok (.char pay.toNat)
  | _ => .error (.invalidEncoding tag pay)

/-- `ToRegister(tv)`, the conversion LOAD applies to a typed literal (R93). -/
def toRegister : TypedValue → Except Fault Half
  | .boolean b => .ok (if b then 1 else 0)
  | .natural n => .ok (u16 n)
  | .integer i => .ok (u16 i)
  | .char c => .ok (u16 c)
  | .float p => .error (.invalidEncoding 4 p)

/-- `IsLiteral(w)`, the test by which LOAD tells a typed literal from a raw word (R94). -/
def isLiteral (w : Word) : Bool :=
  decide (slice w 31 27 = 0) && decide (1 ≤ slice w 26 21) && decide (slice w 26 21 ≤ 5)

/-- The register pattern that LOAD makes of a memory word (43_data_movement.md R180). -/
def loadValue (w : Word) : Except Fault Half :=
  if isLiteral w then
    match decodeTyped (fieldsOf w).tag (fieldsOf w).pay with
    | .ok tv => toRegister tv
    | .error e => .error e
  else .ok (low16 w)

/-! ### The value of a Float payload (R91) -/

/-- A binary32 value: a finite one is `(-1)^negative * significand * 2^exponent`. -/
inductive FloatValue where
  | nan
  | infinity (negative : Bool)
  | finite (negative : Bool) (significand : Nat) (exponent : Int)
  deriving DecidableEq, Repr

/-- The binary32 word `{pay, 00000000000}` of a Float payload (R91). -/
def floatWord (pay : BitVec 21) : Word := BitVec.ofNat 32 (pay.toNat * 2 ^ 11)

/-- The value of a Float payload: that of its binary32 word, with binary32's zero, subnormal,
infinity and NaN rules (R91, D11). -/
def floatValue (pay : BitVec 21) : FloatValue :=
  let w := floatWord pay
  let negative := decide (slice w 31 31 = 1)
  let expo := slice w 30 23
  let man := slice w 22 0
  if expo = 255 then (if man = 0 then .infinity negative else .nan)
  else if expo = 0 then .finite negative man (-149)
  else .finite negative (2 ^ 23 + man) (expo - 150)

/-! ### The encoder of typed values (R92), outside the core, for building words -/

/-- `EncodeTyped`: the tag and payload of a value, none outside the type's domain (R92, D48). -/
def encodeTyped : TypedValue → Option (BitVec 6 × BitVec 21)
  | .boolean b => some (1, if b then 1 else 0)
  | .natural n => if n < 2 ^ 21 then some (2, BitVec.ofNat 21 n) else none
  | .integer i => if -2 ^ 20 ≤ i ∧ i < 2 ^ 20 then some (3, BitVec.ofInt 21 i) else none
  | .float p => some (4, p)
  | .char c => if c ≤ 0x10FFFF then some (5, BitVec.ofNat 21 c) else none

/-- The Float payload of a binary32 word: its top 21 bits (R92). -/
def floatPayload (w : Word) : BitVec 21 := BitVec.ofNat 21 (slice w 31 11)

end Sys2Proof.Machine
end

