-- ==== Sys2Proof/Machine/DataMove.lean ====
section
/-! DEFINITION. The data movement instructions (43_data_movement.md). -/

namespace Sys2Proof.Machine

/-- LOAD (R180). -/
def execLoad (ra : Reg) (a25 : Nat) (s : State) : Result :=
  attempt (s.memRead a25) fun w => attempt (loadValue w) fun v => advance (s.setReg ra v)

/-- What STORE and STORER share: the ordinary write of `sext_32(x[ra])` (R181, R182). -/
def storeReg (ra : Reg) (a25 : Nat) (s : State) : Result :=
  attempt (s.memWrite a25 (sext32 (s.reg ra))) fun t => advance t

/-- STORE (R181). -/
def execStore (ra : Reg) (a25 : Nat) (s : State) : Result := storeReg ra a25 s

/-- STORER (R182). -/
def execStorer (ra : Reg) (a25 : Nat) (s : State) : Result := storeReg ra a25 s

/-- MOVE, first field destination (R183, D31). -/
def execMove (ra rb : Reg) (s : State) : Result := advance (s.setReg ra (s.reg rb))

/-- LOADR, first field destination (R184, D31). -/
def execLoadr (ra rb : Reg) (s : State) : Result := advance (s.setReg ra (s.reg rb))

end Sys2Proof.Machine
end

