-- ==== Sys2Proof/Machine/IoStack.lean ====
section
/-! DEFINITION. The input, output and stack instructions (44_io_stack.md). -/

namespace Sys2Proof.Machine

/-- IN: suspend without advancing pc; `provide_input` completes it (R200, 40_engine.md R116). The pc
stays, so no next pc is checked (40_engine.md R112). -/
def execIn (ra : Reg) (s : State) : Result := .next (s.setRun (.awaitingInput ra s.mode))

/-- OUT (R201). -/
def execOut (ra : Reg) (s : State) : Result := advance (s.emit (.out (s16 (s.reg ra))))

/-- PUSH (R202). -/
def execPush (ra : Reg) (s : State) : Result :=
  attempt (s.push (sext32 (s.reg ra))) fun t => advance t

/-- POP (R203). -/
def execPop (ra : Reg) (s : State) : Result :=
  attempt s.pop fun p => advance (p.2.setReg ra (low16 p.1))

end Sys2Proof.Machine
end

