-- ==== Sys2Proof/Machine/Misc.lean ====
section
/-! DEFINITION. CMP, CLR, NOP and HALT (45_compare_misc.md). -/

namespace Sys2Proof.Machine

/-- CMP (R220). -/
def execCmp (ra rb : Reg) (s : State) : Result :=
  advance (s.setFlags (cmpFlags s.cfg.cmpCarry (s.reg ra) (s.reg rb)))

/-- CLR, a documented no-operation: the register is decoded and ignored (R221). -/
def execClr (_ra : Reg) (s : State) : Result := advance s

/-- NOP, the literal carrier (R222). -/
def execNop (tag : BitVec 6) (pay : BitVec 21) (s : State) : Result :=
  attempt (decodeTyped tag pay) fun tv => advance (s.emit (.literal tv))

/-- HALT: the pc stays at the HALT, so no next pc is checked (R223, 40_engine.md R112). -/
def execHalt (s : State) : Result := .next (s.setRun .halted)

end Sys2Proof.Machine
end

