-- ==== Sys2Proof/Machine/Dispatch.lean ====
section
/-! DEFINITION. The dispatch of a decoded instruction to its one handler (40_engine.md R112). -/

namespace Sys2Proof.Machine

def exec (i : Instr) (s : State) : Host.Outcome State Fault Refusal :=
  match i with
  | .nop tag pay => Sys2Proof.Machine.execNop tag pay s
  | .load ra a25 => Sys2Proof.Machine.execLoad ra a25 s
  | .store ra a25 => Sys2Proof.Machine.execStore ra a25 s
  | .move ra rb => Sys2Proof.Machine.execMove ra rb s
  | .add ra rb rc => Sys2Proof.Machine.execAdd ra rb rc s
  | .sub ra rb rc => Sys2Proof.Machine.execSub ra rb rc s
  | .mul ra rb rc => Sys2Proof.Machine.execMul ra rb rc s
  | .div ra rb rc => Sys2Proof.Machine.execDiv ra rb rc s
  | .and ra rb rc => Sys2Proof.Machine.execAnd ra rb rc s
  | .or ra rb rc => Sys2Proof.Machine.execOr ra rb rc s
  | .nor ra rb rc => Sys2Proof.Machine.execNor ra rb rc s
  | .not ra => Sys2Proof.Machine.execNot ra s
  | .shl ra rb => Sys2Proof.Machine.execShl ra rb s
  | .shr ra rb => Sys2Proof.Machine.execShr ra rb s
  | .rol ra rb => Sys2Proof.Machine.execRol ra rb s
  | .ror ra rb => Sys2Proof.Machine.execRor ra rb s
  | .jump a27 => Sys2Proof.Machine.execJump a27 s
  | .beq a27 => Sys2Proof.Machine.execBeq a27 s
  | .bne ra rb a23 => Sys2Proof.Machine.execBne ra rb a23 s
  | .blt ra rb a23 => Sys2Proof.Machine.execBlt ra rb a23 s
  | .jle ra rb a23 => Sys2Proof.Machine.execJle ra rb a23 s
  | .push ra => Sys2Proof.Machine.execPush ra s
  | .pop ra => Sys2Proof.Machine.execPop ra s
  | .call a27 => Sys2Proof.Machine.execCall a27 s
  | .ret => Sys2Proof.Machine.execRet s
  | .inp ra => Sys2Proof.Machine.execIn ra s
  | .out ra => Sys2Proof.Machine.execOut ra s
  | .cmp ra rb => Sys2Proof.Machine.execCmp ra rb s
  | .clr ra => Sys2Proof.Machine.execClr ra s
  | .loadr ra rb => Sys2Proof.Machine.execLoadr ra rb s
  | .storer ra a25 => Sys2Proof.Machine.execStorer ra a25 s
  | .halt => Sys2Proof.Machine.execHalt s

end Sys2Proof.Machine
end

