-- ==== Sys2Proof/Machine/Step.lean ====
section
/-! DEFINITION. One Step (40_engine.md R111, R112, R115), and the placing of an instruction where the
next Step fetches it. -/

namespace Sys2Proof.Machine

/-- `Step(mode)` in state Running, with `mode` read from the state; in any other run state nothing is
fetched and the answer is `NotRunning(run)` (R115). -/
def step (s : State) : Host.Outcome State Fault Refusal :=
  match s.run with
  | .running => attempt (fetch s) fun w => exec (decode w) s
  | r => .refused (.notRunning r)

/-- `s` with the instruction whose bits are `w` stored at its `pc` and the engine Running, as after a
load at `pc` (40_engine.md R119; assumption 7). -/
def State.withFetchWord (s : State) (nbits w : Nat) : State :=
  (s.setMem (memSet s.mem s.pc (BitVec.ofNat 32 (w % 2 ^ nbits)))).setRun .running

end Sys2Proof.Machine
end

