-- ==== Sys2Proof/Machine/HostOps.lean ====
section
/-! DEFINITION. The host operations (40_engine.md R114 to R121, 70_reset_and_hazards.md R270), each one
atomic transaction on the state. -/

namespace Sys2Proof.Machine

/-- The names `read_flag` takes, a closed type (40_engine.md R121, D46). -/
inductive FlagName where
  | carry
  | zero
  | negative
  | overflow
  deriving DecidableEq, Repr

/-- A host operation with its arguments (40_engine.md R120). `fuel` bounds the Steps of the run loop,
which need not end (R117, D24). -/
inductive HostCall where
  | reset
  | loadImage (base : Nat) (words : List Word)
  | step
  | runToHaltOrInput (fuel : Nat)
  | provideInput (i v : Int) (fuel : Nat)
  | readRegister (i : Int)
  | readFlag (name : FlagName)
  | readMemory (a : Nat)
  | getCp
  deriving DecidableEq, Repr

/-- What a host operation returns (R114 to R121). `notFinished` is the model's own: the fuel ended
while the run loop was still running. -/
inductive HostReply where
  | done
  | stepped (events : List Event)
  | nowAwaitingInput (r : Reg)
  | nowHalted
  | halted
  | awaitingInput (r : Reg)
  | stoppedAtSentinel (pc : Nat)
  | resumed
  | notFinished
  | notRunning (run : RunState)
  | refusedNotAwaitingInput
  | error (e : Fault)
  | value (v : Int)
  | bit (b : Bool)
  | word (w : Word)
  | address (a : Nat)
  deriving DecidableEq, Repr

/-- `step()` (R114, R115); an error leaves the state as it was (60_exceptions.md R243). -/
def hostStep (s : State) : HostReply × State :=
  match step (s.setMode .step) with
  | .fault e => (.error e, s)
  | .refused _ => (.notRunning s.run, s)
  | .next t =>
    match t.run with
    | .running => (.stepped (t.events.drop s.events.length), t)
    | .awaitingInput r _ => (.nowAwaitingInput r, t)
    | .halted => (.nowHalted, t)

/-- The loop of `run_to_halt_or_input()` from a Running state (R117). -/
def runLoop : Nat → State → HostReply × State
  | 0, s => (.notFinished, s)
  | fuel + 1, s =>
    if memGet s.mem s.pc = 0 then (.stoppedAtSentinel s.pc, s)
    else
      match step (s.setMode .run) with
      | .fault e => (.error e, s)
      | .refused _ => (.notRunning s.run, s)
      | .next t =>
        match t.run with
        | .running => runLoop fuel t
        | .awaitingInput r _ => (.awaitingInput r, t)
        | .halted => (.halted, t)

/-- `run_to_halt_or_input()` (R115, R117). -/
def runToHaltOrInput (fuel : Nat) (s : State) : HostReply × State :=
  match s.run with
  | .running => runLoop fuel s
  | r => (.notRunning r, s)

/-- The state after an accepted input (R116). -/
def acceptInput (r : Reg) (v : Int) (s : State) : State :=
  ((s.setReg r (u16 v)).setPc (s.pc + 1)).setRun .running

/-- `provide_input(i, v)` (R116), with the order of checks of 60_exceptions.md R244. -/
def provideInput (i v : Int) (fuel : Nat) (s : State) : HostReply × State :=
  match s.run with
  | .awaitingInput r mode =>
    if i < 0 ∨ i > 3 then (.error (.invalidRegisterIndex i), s)
    else if i ≠ r.number then (.error (.invalidRegisterIndex i), s)
    else if s.cfg.memSize ≤ s.pc + 1 then (.error (.addressOutOfRange (s.pc + 1)), s)
    else
      match mode with
      | .step => (.resumed, acceptInput r v s)
      | .run => runToHaltOrInput fuel (acceptInput r v s)
  | _ => (.refusedNotAwaitingInput, s)

/-- The first error of an image laid out from an address, in address order (R119, R244). -/
def imageError (c : Config) : Nat → List Word → Option Fault
  | _, [] => none
  | a, _ :: ws =>
    if c.memSize ≤ a then some (.addressOutOfRange a)
    else if c.stackBase ≤ a then some (.stackRegionViolation a)
    else imageError c (a + 1) ws

/-- The error of a whole image, the empty one's base checked too (R119). -/
def loadError (c : Config) (base : Nat) (words : List Word) : Option Fault :=
  if words = [] ∧ c.memSize ≤ base then some (.addressOutOfRange base) else imageError c base words

/-- The memory after the words are written from an address upward (R119). -/
def writeImage (m : Memory) : Nat → List Word → Memory
  | _, [] => m
  | a, w :: ws => writeImage (memSet m a w) (a + 1) ws

/-- `load_image(base, words)`, all or nothing (R119, D34). -/
def loadImage (base : Nat) (words : List Word) (s : State) : HostReply × State :=
  match loadError s.cfg base words with
  | some e => (.error e, s)
  | none => (.done, ((s.setMem (writeImage s.mem base words)).setPc base).setRun .running)

/-- `read_register(i)` (R121, 10_state.md R21). -/
def readRegister (i : Int) (s : State) : HostReply :=
  if i < 0 ∨ i > 3 then .error (.invalidRegisterIndex i)
  else .value (s16 (s.reg (Reg.ofNumber i.toNat)))

/-- `read_flag(name)` (R121). -/
def readFlag (name : FlagName) (s : State) : HostReply :=
  match name with
  | .carry => .bit s.flags.c
  | .zero => .bit s.flags.z
  | .negative => .bit s.flags.n
  | .overflow => .bit s.flags.v

/-- `read_memory(a)` (R121). -/
def readMemory (a : Nat) (s : State) : HostReply :=
  match s.memRead a with
  | .ok w => .word w
  | .error e => .error e

/-- One host operation: what it returns and the state it leaves. `reset()` is 70_reset_and_hazards.md
R270; the four reads leave the state as it was (R121). -/
def hostCall (op : HostCall) (s : State) : HostReply × State :=
  match op with
  | .reset => (.done, State.ofConfig s.cfg)
  | .loadImage base words => loadImage base words s
  | .step => hostStep s
  | .runToHaltOrInput fuel => runToHaltOrInput fuel s
  | .provideInput i v fuel => provideInput i v fuel s
  | .readRegister i => (readRegister i s, s)
  | .readFlag name => (readFlag name s, s)
  | .readMemory a => (readMemory a s, s)
  | .getCp => (.address s.pc, s)

end Sys2Proof.Machine
end

