-- ==== Sys2Proof/Safety.lean ====
section
/-! DEFINITION. The terms in which claims about runs are stated: the invariant of the architectural
state, the frames of an instruction, and a clean launch. -/

namespace Sys2Proof.Machine

/-- What the spec says always holds of the state: the parameters are legal (00_scope.md R5), the pc is
an address (10_state.md R25, R26), SP is in its range (R27), the free stack slots hold 0 (R28), and the
memory is in its one canonical form with nothing outside the address space (R31). -/
structure State.Inv (s : State) : Prop where
  cfgValid : s.cfg.Valid
  pcInside : s.pc < s.cfg.memSize
  spLow : s.cfg.stackBase ≤ s.sp
  spHigh : s.sp ≤ s.cfg.memSize
  memWf : Memory.wf s.mem = true
  outsideZero : ∀ a, s.cfg.memSize ≤ a → memGet s.mem a = 0
  freeSlots : ∀ a, s.sp ≤ a → a < s.cfg.memSize → memGet s.mem a = 0

/-- A waiting engine stands at the IN whose register it waits for (44_io_stack.md R200). -/
def WaitsAtItsIn (s : State) : Prop :=
  ∀ r m, s.run = .awaitingInput r m → decode (memGet s.mem s.pc) = .inp r

/-- Every memory word reads as before. -/
def SameMem (s t : State) : Prop := ∀ a, memGet t.mem a = memGet s.mem a

/-- Every memory word but the one at `a` reads as before. -/
def OnlyMem (a : Nat) (s t : State) : Prop := ∀ b, b ≠ a → memGet t.mem b = memGet s.mem b

/-- Every register reads as before. -/
def SameRegs (s t : State) : Prop := ∀ q, t.reg q = s.reg q

/-- Every register but `r` reads as before. -/
def OnlyReg (r : Reg) (s t : State) : Prop := ∀ q, q ≠ r → t.reg q = s.reg q

/-- The run state, the mode of the Step and the parameters are as before. -/
def SameEngine (s t : State) : Prop := t.run = s.run ∧ t.mode = s.mode ∧ t.cfg = s.cfg

/-- Nothing but registers, flags and the pc may differ. -/
def Quiet (s t : State) : Prop :=
  SameMem s t ∧ t.sp = s.sp ∧ t.events = s.events ∧ SameEngine s t

/-- A clean launch of an image at `base` (70_reset_and_hazards.md R274). -/
structure CleanLaunch (base : Nat) (words : List Word) (s : State) : Prop where
  running : s.run = .running
  pcBase : s.pc = base
  stackEmpty : s.sp = s.cfg.stackBase
  image : ∀ j (h : j < words.length), memGet s.mem (base + j) = words[j]
  others : ∀ a, (a < base ∨ base + words.length ≤ a) → memGet s.mem a = 0
  noEvents : s.events = []

end Sys2Proof.Machine
end

