-- ==== Sys2Proof/Certificates/Slice0/Obligations.lean ====
section
/-! DEFINITION. The statements for the provers, one `def Obligations.<Name> : Prop` each, listed in
OBLIGATIONS.json. Every statement holds for every choice of the parameters of 00_scope.md R5, since
they are part of the state it quantifies over; none rests on a reset value that an assumption names,
and a clause that rests on another choice of the model names its log entry. -/

section
open Sys2Proof Sys2Proof.Machine

/-! ### Helpers of the statements -/

/-- How many low bits of a word with opcode number `op` its format leaves unused (30_encoding.md R86). -/
def Sys2Proof.Claims.unusedBits (op : Nat) : Nat :=
  if op ∈ [24, 31] then 27
  else if op ∈ [11, 21, 22, 25, 26, 28] then 25
  else if op ∈ [3, 12, 13, 14, 15, 27, 29] then 23
  else if op ∈ [4, 5, 6, 7, 8, 9, 10] then 21
  else 0

/-- The word with its format's unused bits cleared. -/
def Sys2Proof.Claims.clearUnused (w : Word) : Word :=
  BitVec.ofNat 32 (w.toNat / 2 ^ Claims.unusedBits (w.toNat / 2 ^ 27) *
    2 ^ Claims.unusedBits (w.toNat / 2 ^ 27))

/-- The signed value of a 21-bit payload (30_encoding.md R90, `s21`). -/
def Sys2Proof.Claims.signed21 (p : Nat) : Int := if p < 2 ^ 20 then p else p - 2 ^ 21

/-- The register an instruction writes at its Step (10_state.md R22). -/
def Sys2Proof.Claims.destination : Instr → Option Reg
  | .load ra _ | .move ra _ | .loadr ra _ | .not ra | .shl ra _ | .shr ra _ | .rol ra _ | .ror ra _
  | .pop ra => some ra
  | .add _ _ rc | .sub _ _ rc | .mul _ _ rc | .div _ _ rc | .and _ _ rc | .or _ _ rc
  | .nor _ _ rc => some rc
  | _ => none

/-- The flags an instruction writes, true for each one written (10_state.md R24). -/
def Sys2Proof.Claims.flagsWritten : Instr → Flags
  | .add _ _ _ => ⟨true, true, false, true⟩
  | .sub _ _ _ => ⟨false, true, true, false⟩
  | .mul _ _ _ => ⟨true, true, false, true⟩
  | .div _ _ _ => ⟨false, true, false, false⟩
  | .cmp _ _ => ⟨true, true, true, true⟩
  | .bne _ _ _ | .blt _ _ _ | .jle _ _ _ => ⟨false, true, true, false⟩
  | _ => ⟨false, false, false, false⟩

/-- The one word an instruction may write in memory (20_memory.md R58). -/
def Sys2Proof.Claims.storesTo (s : State) : Instr → Option Nat
  | .store _ a | .storer _ a => some a
  | .push _ | .call _ => some s.sp
  | .pop _ | .ret => some (s.sp - 1)
  | _ => none

/-- PUSH, POP, CALL and RET, the users of the stack (10_state.md R27). -/
def Sys2Proof.Claims.usesStack : Instr → Bool
  | .push _ | .pop _ | .call _ | .ret => true
  | _ => false

/-- LOAD of `a` into `ra` completes, writes `v` and changes nothing else but the pc. -/
def Sys2Proof.Claims.Loads (ra : Reg) (a : Nat) (v : Half) (s : State) : Prop :=
  ∃ t, exec (.load ra a) s = .next t ∧ t.reg ra = v ∧ OnlyReg ra s t ∧ t.flags = s.flags ∧
    t.pc = s.pc + 1 ∧ Quiet s t

/-- NOP completes, emits `tv` and changes nothing else but the pc. -/
def Sys2Proof.Claims.Emits (tag : BitVec 6) (pay : BitVec 21) (tv : TypedValue) (s : State) : Prop :=
  ∃ t, exec (.nop tag pay) s = .next t ∧ t.events = s.events ++ [.literal tv] ∧ SameRegs s t ∧
    t.flags = s.flags ∧ t.pc = s.pc + 1 ∧ SameMem s t ∧ t.sp = s.sp ∧ SameEngine s t

/-- A store of `ra` to ordinary memory at `a` completes: the word at `a` is the register's signed value
and nothing else changes but the pc. -/
def Sys2Proof.Claims.Stores (i : Instr) (ra : Reg) (a : Nat) (s : State) : Prop :=
  ∃ t, exec i s = .next t ∧ (memGet t.mem a).toInt = (s.reg ra).toInt ∧ OnlyMem a s t ∧
    SameRegs s t ∧ t.flags = s.flags ∧ t.pc = s.pc + 1 ∧ t.sp = s.sp ∧ t.events = s.events ∧
    SameEngine s t

/-- The instruction completes, writes `v` to `r` and changes nothing else but the pc, no flag either. -/
def Sys2Proof.Claims.WritesOnly (i : Instr) (r : Reg) (v : Half) (s : State) : Prop :=
  ∃ t, exec i s = .next t ∧ t.reg r = v ∧ OnlyReg r s t ∧ t.flags = s.flags ∧ t.pc = s.pc + 1 ∧
    Quiet s t

/-- The instruction completes with its next pc at `n` and flags `f`, and changes nothing else. -/
def Sys2Proof.Claims.GoesTo (i : Instr) (n : Nat) (f : Flags) (s : State) : Prop :=
  ∃ t, exec i s = .next t ∧ t.pc = n ∧ t.flags = f ∧ SameRegs s t ∧ Quiet s t

/-- A compare-and-branch: N and Z from the signed difference, the next pc by `taken`, and
AddressOutOfRange with no effect where the chosen next pc is outside memory. -/
def Sys2Proof.Claims.CompareBranch (i : Reg → Reg → Nat → Instr) (taken : Half → Half → Bool) : Prop :=
  ∀ (ra rb : Reg) (a : Nat) (s : State),
    let n := if taken (s.reg ra) (s.reg rb) then a else s.pc + 1
    (n < s.cfg.memSize →
      Claims.GoesTo (i ra rb a) n
        { s.flags with
          n := decide ((s.reg ra).toInt < (s.reg rb).toInt)
          z := decide (s.reg ra = s.reg rb) } s) ∧
    (s.cfg.memSize ≤ n → exec (i ra rb a) s = .fault (.addressOutOfRange n))

/-- The pushes of a list of words, the first one first. -/
def Sys2Proof.Claims.pushAll : List Word → State → Except Fault State
  | [], s => .ok s
  | w :: ws, s =>
    match s.push w with
    | .ok t => Claims.pushAll ws t
    | .error e => .error e

/-- `n` pops: the popped words, the first popped first, and the state after them. -/
def Sys2Proof.Claims.popAll : Nat → State → Except Fault (List Word × State)
  | 0, s => .ok ([], s)
  | n + 1, s =>
    match s.pop with
    | .ok (w, t) =>
      match Claims.popAll n t with
      | .ok (ws, u) => .ok (w :: ws, u)
      | .error e => .error e
    | .error e => .error e

/-- An image the loader accepts: below the stack region, or empty at an address of memory. -/
def Sys2Proof.Claims.ImageFits (c : Config) (base : Nat) (words : List Word) : Prop :=
  (words = [] ∧ base < c.memSize) ∨ (words ≠ [] ∧ base + words.length ≤ c.stackBase)

/-- An accepted input `v` for register `r`: what `provide_input` leaves (40_engine.md R116). -/
def Sys2Proof.Claims.InputTaken (r : Reg) (v : Int) (s u : State) : Prop :=
  u.reg r = BitVec.ofInt 16 v ∧ OnlyReg r s u ∧ u.pc = s.pc + 1 ∧ u.run = .running ∧
    u.flags = s.flags ∧ SameMem s u ∧ u.sp = s.sp ∧ u.events = s.events ∧ u.mode = s.mode ∧ u.cfg = s.cfg

/-! ### The statements -/

/-- For every well-formed instruction, of all 32 opcodes and with every operand at every value its
field admits, the decoder reads from the encoder's word exactly that instruction. (Rests on
30_encoding.md R82, 30_encoding.md R86, 30_encoding.md R95.) -/
def Obligations.DecodeOfEncodeIsTheInstruction : Prop :=
  ∀ i : Instr, i.wellFormed = true → decode (encode i) = i

/-- For every word: it decodes as the word with the unused bits of its format cleared, and
encoding the decoded instruction gives the word with those bits cleared (every used bit is kept).
Every handler receives only the decoded instruction, so two words that decode alike run alike:
where the words at pc in memories that are otherwise the same differ only there, the two Steps run
the same instruction. (Formalises R87.) -/
def Obligations.UnusedBitsAreIgnoredAndEncodedAsZero : Prop :=
  ∀ w : Word,
    decode w = decode (Claims.clearUnused w) ∧ encode (decode w) = Claims.clearUnused w ∧
    ∀ s : State, s.run = .running → s.pc < s.cfg.memSize → memGet s.mem s.pc = w →
      step s = exec (decode (Claims.clearUnused w)) s

/-- Decoding never refuses a word, and every operand it reads fits the field of its format. (Rests
on 30_encoding.md R82, 30_encoding.md R85, 30_encoding.md R96.) -/
def Obligations.DecodedInstructionsAreWellFormed : Prop :=
  ∀ w : Word, (decode w).wellFormed = true

/-- For every word, bit k of each decoder output is the table's bit of the word, and 0 above the
output's width: op w[31:27], ra w[26:25], rb w[24:23], rc w[22:21], a27 w[26:0], a25 w[24:0], a23
w[22:0], tag w[26:21], pay w[20:0], whatever the opcode is. (Formalises R83.) -/
def Obligations.DecoderFieldsHoldTheirBits : Prop :=
  ∀ w : Word,
    (∀ k : Nat, (fieldsOf w).op.number.testBit k = (decide (k < 5) && w.getLsbD (27 + k))) ∧
    (∀ k : Nat, (fieldsOf w).ra.number.testBit k = (decide (k < 2) && w.getLsbD (25 + k))) ∧
    (∀ k : Nat, (fieldsOf w).rb.number.testBit k = (decide (k < 2) && w.getLsbD (23 + k))) ∧
    (∀ k : Nat, (fieldsOf w).rc.number.testBit k = (decide (k < 2) && w.getLsbD (21 + k))) ∧
    (∀ k : Nat, (fieldsOf w).a27.testBit k = (decide (k < 27) && w.getLsbD k)) ∧
    (∀ k : Nat, (fieldsOf w).a25.testBit k = (decide (k < 25) && w.getLsbD k)) ∧
    (∀ k : Nat, (fieldsOf w).a23.testBit k = (decide (k < 23) && w.getLsbD k)) ∧
    (∀ k : Nat, (fieldsOf w).tag.getLsbD k = (decide (k < 6) && w.getLsbD (21 + k))) ∧
    (∀ k : Nat, (fieldsOf w).pay.getLsbD k = (decide (k < 21) && w.getLsbD k))

/-- For every word and every value 0..31 of its five top bits, the decoder gives the instruction
of that row of the opcode map, with the fields of the row's format as operands, in order; and the
word assembled from an instruction's fields has the row's opcode on top. (Formalises R95.) -/
def Obligations.OpcodeMapChoosesInstructionAndFields : Prop :=
  ∀ w : Word,
    (w.toNat / 2 ^ 27 = 0 → decode w = .nop (fieldsOf w).tag (fieldsOf w).pay) ∧
    (w.toNat / 2 ^ 27 = 1 → decode w = .load (fieldsOf w).ra (fieldsOf w).a25) ∧
    (w.toNat / 2 ^ 27 = 2 → decode w = .store (fieldsOf w).ra (fieldsOf w).a25) ∧
    (w.toNat / 2 ^ 27 = 3 → decode w = .move (fieldsOf w).ra (fieldsOf w).rb) ∧
    (w.toNat / 2 ^ 27 = 4 → decode w = .add (fieldsOf w).ra (fieldsOf w).rb (fieldsOf w).rc) ∧
    (w.toNat / 2 ^ 27 = 5 → decode w = .sub (fieldsOf w).ra (fieldsOf w).rb (fieldsOf w).rc) ∧
    (w.toNat / 2 ^ 27 = 6 → decode w = .mul (fieldsOf w).ra (fieldsOf w).rb (fieldsOf w).rc) ∧
    (w.toNat / 2 ^ 27 = 7 → decode w = .div (fieldsOf w).ra (fieldsOf w).rb (fieldsOf w).rc) ∧
    (w.toNat / 2 ^ 27 = 8 → decode w = .and (fieldsOf w).ra (fieldsOf w).rb (fieldsOf w).rc) ∧
    (w.toNat / 2 ^ 27 = 9 → decode w = .or (fieldsOf w).ra (fieldsOf w).rb (fieldsOf w).rc) ∧
    (w.toNat / 2 ^ 27 = 10 → decode w = .nor (fieldsOf w).ra (fieldsOf w).rb (fieldsOf w).rc) ∧
    (w.toNat / 2 ^ 27 = 11 → decode w = .not (fieldsOf w).ra) ∧
    (w.toNat / 2 ^ 27 = 12 → decode w = .shl (fieldsOf w).ra (fieldsOf w).rb) ∧
    (w.toNat / 2 ^ 27 = 13 → decode w = .shr (fieldsOf w).ra (fieldsOf w).rb) ∧
    (w.toNat / 2 ^ 27 = 14 → decode w = .rol (fieldsOf w).ra (fieldsOf w).rb) ∧
    (w.toNat / 2 ^ 27 = 15 → decode w = .ror (fieldsOf w).ra (fieldsOf w).rb) ∧
    (w.toNat / 2 ^ 27 = 16 → decode w = .jump (fieldsOf w).a27) ∧
    (w.toNat / 2 ^ 27 = 17 → decode w = .beq (fieldsOf w).a27) ∧
    (w.toNat / 2 ^ 27 = 18 → decode w = .bne (fieldsOf w).ra (fieldsOf w).rb (fieldsOf w).a23) ∧
    (w.toNat / 2 ^ 27 = 19 → decode w = .blt (fieldsOf w).ra (fieldsOf w).rb (fieldsOf w).a23) ∧
    (w.toNat / 2 ^ 27 = 20 → decode w = .jle (fieldsOf w).ra (fieldsOf w).rb (fieldsOf w).a23) ∧
    (w.toNat / 2 ^ 27 = 21 → decode w = .push (fieldsOf w).ra) ∧
    (w.toNat / 2 ^ 27 = 22 → decode w = .pop (fieldsOf w).ra) ∧
    (w.toNat / 2 ^ 27 = 23 → decode w = .call (fieldsOf w).a27) ∧
    (w.toNat / 2 ^ 27 = 24 → decode w = .ret) ∧
    (w.toNat / 2 ^ 27 = 25 → decode w = .inp (fieldsOf w).ra) ∧
    (w.toNat / 2 ^ 27 = 26 → decode w = .out (fieldsOf w).ra) ∧
    (w.toNat / 2 ^ 27 = 27 → decode w = .cmp (fieldsOf w).ra (fieldsOf w).rb) ∧
    (w.toNat / 2 ^ 27 = 28 → decode w = .clr (fieldsOf w).ra) ∧
    (w.toNat / 2 ^ 27 = 29 → decode w = .loadr (fieldsOf w).ra (fieldsOf w).rb) ∧
    (w.toNat / 2 ^ 27 = 30 → decode w = .storer (fieldsOf w).ra (fieldsOf w).a25) ∧
    (w.toNat / 2 ^ 27 = 31 → decode w = .halt) ∧
    (encode (decode w)).toNat / 2 ^ 27 = w.toNat / 2 ^ 27

/-- The six words of the spec's table of worked encodings decode to the instructions it names, and
those instructions encode to those words. (Formalises R99.) -/
def Obligations.WorkedEncodingsDecodeAndEncode : Prop :=
  ∀ p ∈ [((0x20C00000 : Word), Instr.add .r0 .r1 .r2), (0x0A00003F, .load .r1 0x3F),
      (0x8000001A, .jump 0x1A), (0x93000007, .bne .r1 .r2 7), (0xF8000000, .halt),
      (0x007FFFFB, .nop 3 0x1FFFFB)],
    decode p.1 = p.2 ∧ encode p.2 = p.1

/-- When the engine is Running with pc inside memory and the word at pc decodes to i, the Step is
exactly exec of i at that state: the meaning itself checks and commits the next pc, and the Step
adds nothing around it. (Rests on 40_engine.md R111, 40_engine.md R112, 20_memory.md R52.) -/
def Obligations.StepRunsTheDecodedInstruction : Prop :=
  ∀ (i : Instr) (s : State), s.run = .running → s.pc < s.cfg.memSize →
    decode (memGet s.mem s.pc) = i → step s = exec i s

/-- When the run state is not Running, the Step has no next state, and the host's step() and
run_to_halt_or_input() return NotRunning(run) and leave the whole state as it was. (Formalises
R115.) -/
def Obligations.EngineNotRunningDoesNothing : Prop :=
  ∀ s : State, s.run ≠ .running →
    step s = .refused (.notRunning s.run) ∧ hostCall .step s = (.notRunning s.run, s) ∧
    ∀ fuel : Nat, hostCall (.runToHaltOrInput fuel) s = (.notRunning s.run, s)

/-- If a Step answers a next state and the word at pc decodes to i, the engine was Running and is
afterwards AwaitingInput(ra, mode) when i is IN ra, Halted when i is HALT and Running for every
other instruction; the parameters and the mode of the Step are unchanged. (Rests on 40_engine.md
R110, 40_engine.md R112.) -/
def Obligations.RunStateMovesAsTheInstructionSays : Prop :=
  ∀ s t : State, step s = .next t →
    s.run = .running ∧
    (∀ ra, decode (memGet s.mem s.pc) = .inp ra → t.run = .awaitingInput ra s.mode) ∧
    (decode (memGet s.mem s.pc) = .halt → t.run = .halted) ∧
    ((∀ ra, decode (memGet s.mem s.pc) ≠ .inp ra) → decode (memGet s.mem s.pc) ≠ .halt →
      t.run = .running) ∧
    t.cfg = s.cfg ∧ t.mode = s.mode

/-- For every state, even one no run reaches, and every Step that answers a next state, the new pc
is below MEM_SIZE: there is no wrap-around and no pc past the end. (Rests on 10_state.md R25,
10_state.md R26.) -/
def Obligations.NextPcIsInsideMemory : Prop :=
  ∀ s t : State, step s = .next t → t.pc < t.cfg.memSize

/-- For every choice of the parameters, the state after reset, and after the host's reset() from
any state, is Running at pc 0 with every memory word 0, SP at STACK_BASE, the registers at
RESET_GPR and the flags at RESET_FLAGS (arbitrary patterns and bits: the statement holds for every
value of the two parameters). (Formalises R34.) -/
def Obligations.ResetGivesTheTableOfResetValues : Prop :=
  ∀ s : State, (hostCall .reset s).1 = .done ∧
    ∀ c : Config, ∀ t : State, (t = State.ofConfig c ∨ (c = s.cfg ∧ t = (hostCall .reset s).2)) →
      t.run = .running ∧ t.pc = 0 ∧ (∀ a, memGet t.mem a = 0) ∧ t.sp = c.memSize - c.stackSize ∧
      t.regs = c.resetGpr ∧ t.flags = c.resetFlags

/-- For all legal parameters the state right after reset meets the invariant that every Step
keeps, and so does State.reset. (Rests on 10_state.md R34, 10_state.md R26, 10_state.md R28.) -/
def Obligations.ResetStateMeetsTheInvariant : Prop :=
  (∀ c : Config, c.Valid → (State.ofConfig c).Inv) ∧ State.reset.Inv

/-- From every state with legal parameters, pc below MEM_SIZE, SP in STACK_BASE..MEM_SIZE, every
free stack slot 0 and the memory in canonical form with nothing outside the address space, a Step
that answers a next state gives a state with all of these again. (Rests on 10_state.md R26,
10_state.md R27, 10_state.md R28, 10_state.md R31, 00_scope.md R5.) -/
def Obligations.EveryStepKeepsTheInvariant : Prop :=
  ∀ s t : State, s.Inv → step s = .next t → t.Inv

/-- From every state that meets the invariant, each host operation (reset, load_image, step,
run_to_halt_or_input, provide_input and the reads), with any arguments and whether it is accepted,
refused or ends in an error, leaves a state that meets it. (Rests on 40_engine.md R116,
40_engine.md R117, 40_engine.md R119, 40_engine.md R121, 70_reset_and_hazards.md R270.) -/
def Obligations.EveryHostOperationKeepsTheInvariant : Prop :=
  ∀ (op : HostCall) (s : State), s.Inv → (hostCall op s).2.Inv

/-- Every Step that answers a next state, and every host operation from a state where it holds,
leaves a state in which AwaitingInput(r, mode) implies that the word at pc decodes to IN r. (Rests
on 10_state.md R29, 44_io_stack.md R200, 40_engine.md R110.) -/
def Obligations.WaitingEngineStandsAtItsIn : Prop :=
  (∀ s t : State, step s = .next t → WaitsAtItsIn t) ∧
    ∀ (op : HostCall) (s : State), WaitsAtItsIn s → WaitsAtItsIn (hostCall op s).2

/-- If an instruction faults: with DivisionByZero it is DIV with divisor 0; with StackFull PUSH or
CALL with SP = MEM_SIZE; with StackEmpty POP or RET with SP = STACK_BASE; with
StackRegionViolation(a) STORE or STORER to the address a of the stack region; with
InvalidEncoding(tag, pay) that NOP, where tag is 0 or 6 to 63 or it is a Char (tag 5) above
0x10FFFF, or a LOAD of the word of that tag and payload, where it is a Float (tag 4) or a Char
above 0x10FFFF; with AddressOutOfRange(a) a is at or above MEM_SIZE and it is neither IN nor HALT;
never with UnknownOpcode or InvalidRegisterIndex, and no instruction refuses. (Rests on
60_exceptions.md R240, 60_exceptions.md R242, 45_compare_misc.md R222, 43_data_movement.md R180,
30_encoding.md R96.) -/
def Obligations.ErrorsComeOnlyFromTheirInstructions : Prop :=
  ∀ (i : Instr) (s : State),
    (exec i s = .fault .divisionByZero → ∃ ra rb rc, i = .div ra rb rc ∧ s.reg rb = 0) ∧
    (exec i s = .fault .stackFull →
      s.sp = s.cfg.memSize ∧ ((∃ ra, i = .push ra) ∨ ∃ a, i = .call a)) ∧
    (exec i s = .fault .stackEmpty →
      s.sp = s.cfg.stackBase ∧ ((∃ ra, i = .pop ra) ∨ i = .ret)) ∧
    (∀ a, exec i s = .fault (.stackRegionViolation a) →
      s.cfg.stackBase ≤ a ∧ a < s.cfg.memSize ∧ ∃ ra, i = .store ra a ∨ i = .storer ra a) ∧
    (∀ tag pay, exec i s = .fault (.invalidEncoding tag pay) →
      (i = .nop tag pay ∧
        (tag.toNat = 0 ∨ 6 ≤ tag.toNat ∨ (tag.toNat = 5 ∧ 0x10FFFF < pay.toNat))) ∨
      ((tag.toNat = 4 ∨ (tag.toNat = 5 ∧ 0x10FFFF < pay.toNat)) ∧
        ∃ ra a, i = .load ra a ∧ a < s.cfg.memSize ∧
          (memGet s.mem a).toNat = tag.toNat * 2 ^ 21 + pay.toNat)) ∧
    (∀ a, exec i s = .fault (.addressOutOfRange a) →
      s.cfg.memSize ≤ a ∧ (∀ ra, i ≠ .inp ra) ∧ i ≠ .halt) ∧
    exec i s ≠ .fault .unknownOpcode ∧ (∀ k, exec i s ≠ .fault (.invalidRegisterIndex k)) ∧
    ∀ r, exec i s ≠ .refused r

/-- For a Running engine, step() performs one Step in mode STEP. If it raises e, step() returns
Error(e) and leaves the whole state as it was, and a second step() does the same. If it answers
the state t, step() leaves t and returns NowAwaitingInput(ra) for IN ra, NowHalted for HALT, and
for every other instruction, after which the engine is Running, Stepped of the events that t has
after the earlier ones. (Formalises R114.) -/
def Obligations.HostStepReportsTheOutcomeOfItsStep : Prop :=
  ∀ s : State, s.run = .running →
    (∀ e, step (s.setMode .step) = .fault e →
      hostCall .step s = (.error e, s) ∧ hostCall .step (hostCall .step s).2 = (.error e, s)) ∧
    ∀ t, step (s.setMode .step) = .next t →
      (∀ ra, decode (memGet s.mem s.pc) = .inp ra → hostCall .step s = (.nowAwaitingInput ra, t)) ∧
      (decode (memGet s.mem s.pc) = .halt → hostCall .step s = (.nowHalted, t)) ∧
      ((∀ ra, decode (memGet s.mem s.pc) ≠ .inp ra) → decode (memGet s.mem s.pc) ≠ .halt →
        t.run = .running ∧ ∃ evs, t.events = s.events ++ evs ∧ hostCall .step s = (.stepped evs, t))

/-- LOAD checks the address before the literal; STORE and STORER check the address, then the stack
region; DIV checks the divisor; PUSH StackFull; POP StackEmpty; CALL StackFull before its target;
RET StackEmpty before the popped target; NOP its immediate; each before the next pc, which no
hypothesis restricts. (Rests on 60_exceptions.md R244, 92_eei_decisions.md D23.) -/
def Obligations.ErrorsComeInTheHandlersOrder : Prop :=
  ∀ (ra rb rc : Reg) (a : Nat) (tag : BitVec 6) (pay : BitVec 21) (e : Fault) (s : State),
    (s.cfg.memSize ≤ a → exec (.load ra a) s = .fault (.addressOutOfRange a)) ∧
    (a < s.cfg.memSize → loadValue (memGet s.mem a) = .error e → exec (.load ra a) s = .fault e) ∧
    (s.cfg.memSize ≤ a → exec (.store ra a) s = .fault (.addressOutOfRange a) ∧
      exec (.storer ra a) s = .fault (.addressOutOfRange a)) ∧
    (s.cfg.stackBase ≤ a → a < s.cfg.memSize →
      exec (.store ra a) s = .fault (.stackRegionViolation a) ∧
      exec (.storer ra a) s = .fault (.stackRegionViolation a)) ∧
    (s.reg rb = 0 → exec (.div ra rb rc) s = .fault .divisionByZero) ∧
    (s.sp = s.cfg.memSize →
      exec (.push ra) s = .fault .stackFull ∧ exec (.call a) s = .fault .stackFull) ∧
    (s.sp = s.cfg.stackBase →
      exec (.pop ra) s = .fault .stackEmpty ∧ exec .ret s = .fault .stackEmpty) ∧
    (s.sp ≠ s.cfg.memSize → s.cfg.memSize ≤ a → exec (.call a) s = .fault (.addressOutOfRange a)) ∧
    (s.sp ≠ s.cfg.stackBase → s.cfg.memSize ≤ (memGet s.mem (s.sp - 1)).toNat →
      exec .ret s = .fault (.addressOutOfRange (memGet s.mem (s.sp - 1)).toNat)) ∧
    (decodeTyped tag pay = .error e → exec (.nop tag pay) s = .fault e)

/-- When pc + 1 is at or above MEM_SIZE, every instruction that advances sequentially and meets no
earlier error (ADD, SUB, MUL, DIV by a nonzero register, AND, OR, NOR, NOT, SHL, SHR, ROL, ROR,
MOVE, LOADR, OUT, CMP, CLR, LOAD of a loadable word, STORE and STORER to ordinary memory, PUSH
with room, POP of an occupied slot, NOP with a valid immediate) reports AddressOutOfRange(pc + 1).
(Rests on 10_state.md R26, 40_engine.md R112, 92_eei_decisions.md D21.) -/
def Obligations.SequentialAdvancePastTheEndFaults : Prop :=
  ∀ (ra rb rc : Reg) (s : State), s.cfg.memSize ≤ s.pc + 1 →
    (∀ i ∈ [Instr.add ra rb rc, .sub ra rb rc, .mul ra rb rc, .and ra rb rc, .or ra rb rc,
        .nor ra rb rc, .not ra, .shl ra rb, .shr ra rb, .rol ra rb, .ror ra rb, .move ra rb,
        .loadr ra rb, .out ra, .cmp ra rb, .clr ra],
      exec i s = .fault (.addressOutOfRange (s.pc + 1))) ∧
    (s.reg rb ≠ 0 → exec (.div ra rb rc) s = .fault (.addressOutOfRange (s.pc + 1))) ∧
    (∀ a v, a < s.cfg.memSize → loadValue (memGet s.mem a) = .ok v →
      exec (.load ra a) s = .fault (.addressOutOfRange (s.pc + 1))) ∧
    (∀ a, a < s.cfg.stackBase →
      exec (.store ra a) s = .fault (.addressOutOfRange (s.pc + 1)) ∧
      exec (.storer ra a) s = .fault (.addressOutOfRange (s.pc + 1))) ∧
    (s.sp ≠ s.cfg.memSize → exec (.push ra) s = .fault (.addressOutOfRange (s.pc + 1))) ∧
    (s.sp ≠ s.cfg.stackBase → exec (.pop ra) s = .fault (.addressOutOfRange (s.pc + 1))) ∧
    (∀ tag pay tv, decodeTyped tag pay = .ok tv →
      exec (.nop tag pay) s = .fault (.addressOutOfRange (s.pc + 1)))

/-- For every instruction that answers a next state, each of C, Z, N and V that the table of flag
writers does not give it keeps its value; so all four persist across every instruction but ADD,
SUB, MUL, DIV, CMP, BNE, BLT and JLE. (Rests on 10_state.md R23, 10_state.md R24.) -/
def Obligations.FlagsChangeOnlyAsTheTableSays : Prop :=
  ∀ (i : Instr) (s t : State), exec i s = .next t →
    ((Claims.flagsWritten i).c = false → t.flags.c = s.flags.c) ∧
    ((Claims.flagsWritten i).z = false → t.flags.z = s.flags.z) ∧
    ((Claims.flagsWritten i).n = false → t.flags.n = s.flags.n) ∧
    ((Claims.flagsWritten i).v = false → t.flags.v = s.flags.v)

/-- If an instruction other than BEQ answers a next state, it answers one from the same state with
any other flags too, with the same registers, pc, SP, memory, run state and events, and every flag
it writes gets the same value. (Rests on 10_state.md R24, 42_control_flow.md R161.) -/
def Obligations.OnlyBeqReadsTheFlags : Prop :=
  ∀ (i : Instr) (s t : State) (f : Flags), (∀ a, i ≠ .beq a) → exec i s = .next t →
    ∃ u, exec i (s.setFlags f) = .next u ∧ u.regs = t.regs ∧ u.pc = t.pc ∧ u.sp = t.sp ∧
      u.mem = t.mem ∧ u.run = t.run ∧ u.events = t.events ∧
      ((Claims.flagsWritten i).c = true → u.flags.c = t.flags.c) ∧
      ((Claims.flagsWritten i).z = true → u.flags.z = t.flags.z) ∧
      ((Claims.flagsWritten i).n = true → u.flags.n = t.flags.n) ∧
      ((Claims.flagsWritten i).v = true → u.flags.v = t.flags.v)

/-- For every instruction that answers a next state, every register other than the one the table
of register writes gives it reads as before; IN, and the instructions with no destination, change
none. (Rests on 10_state.md R22.) -/
def Obligations.RegistersChangeOnlyInTheDestination : Prop :=
  ∀ (i : Instr) (s t : State) (q : Reg), exec i s = .next t → Claims.destination i ≠ some q →
    t.reg q = s.reg q

/-- For every instruction that answers a next state: every word other than the one it stores to
(a25 for STORE and STORER, SP for PUSH and CALL, SP - 1 for POP and RET, none for all others)
reads as before, and unless it is PUSH, POP, CALL or RET every word of the stack region reads as
before and SP is unchanged. (Rests on 20_memory.md R54, 20_memory.md R55, 20_memory.md R58.) -/
def Obligations.MemoryChangesOnlyWhereTheInstructionStores : Prop :=
  ∀ (i : Instr) (s t : State), exec i s = .next t →
    (∀ b, Claims.storesTo s i ≠ some b → memGet t.mem b = memGet s.mem b) ∧
    (Claims.usesStack i = false →
      t.sp = s.sp ∧ ∀ b, s.cfg.stackBase ≤ b → memGet t.mem b = memGet s.mem b)

/-- For every instruction that answers a next state: OUT appends one Out of the register's signed
value, NOP appends one Literal, and every other instruction leaves the events as they were. (Rests
on 40_engine.md R118.) -/
def Obligations.EventsComeOnlyFromOutAndNop : Prop :=
  ∀ (i : Instr) (s t : State), exec i s = .next t →
    (∀ ra, i = .out ra → t.events = s.events ++ [.out (s.reg ra).toInt]) ∧
    (∀ tag pay, i = .nop tag pay →
      ∃ tv, decodeTyped tag pay = .ok tv ∧ t.events = s.events ++ [.literal tv]) ∧
    ((∀ ra, i ≠ .out ra) → (∀ tag pay, i ≠ .nop tag pay) → t.events = s.events)

/-- With pc + 1 inside memory ADD completes: the destination gets the sum modulo 2^16, Z tells
whether it is 0, C is the carry out of bit 15 of the unsigned sum, V is set when the exact signed
sum is outside -32768..32767, N is kept; every other register, SP, memory, run state and event is
unchanged. (Formalises R130.) -/
def Obligations.AddWritesSumZeroCarryOverflow : Prop :=
  ∀ (ra rb rc : Reg) (s : State), s.pc + 1 < s.cfg.memSize →
    ∃ t, exec (.add ra rb rc) s = .next t ∧
      t.reg rc = BitVec.ofInt 16 ((s.reg ra).toInt + (s.reg rb).toInt) ∧ OnlyReg rc s t ∧
      t.flags = { s.flags with
        z := decide (t.reg rc = 0)
        c := decide ((s.reg ra).toNat + (s.reg rb).toNat ≥ 65536)
        v := decide ((s.reg ra).toInt + (s.reg rb).toInt < -32768 ∨
          (s.reg ra).toInt + (s.reg rb).toInt > 32767) } ∧
      t.pc = s.pc + 1 ∧ Quiet s t

/-- With pc + 1 inside memory SUB completes: the destination gets the difference modulo 2^16, Z
tells whether it is 0, N whether the exact signed difference is negative, C and V are kept;
nothing else changes but pc. (Formalises R131.) -/
def Obligations.SubWritesDifferenceZeroNegative : Prop :=
  ∀ (ra rb rc : Reg) (s : State), s.pc + 1 < s.cfg.memSize →
    ∃ t, exec (.sub ra rb rc) s = .next t ∧
      t.reg rc = BitVec.ofInt 16 ((s.reg ra).toInt - (s.reg rb).toInt) ∧ OnlyReg rc s t ∧
      t.flags = { s.flags with
        z := decide (t.reg rc = 0)
        n := decide ((s.reg ra).toInt < (s.reg rb).toInt) } ∧
      t.pc = s.pc + 1 ∧ Quiet s t

/-- With pc + 1 inside memory MUL completes: the destination gets the exact signed product modulo
2^16, Z tells whether that is 0, C and V are both set exactly when the exact product is above
2097151 in magnitude, N is kept; nothing else changes but pc. (Formalises R132.) -/
def Obligations.MulWritesLowProductZeroCarryOverflow : Prop :=
  ∀ (ra rb rc : Reg) (s : State), s.pc + 1 < s.cfg.memSize →
    ∃ t, exec (.mul ra rb rc) s = .next t ∧
      t.reg rc = BitVec.ofInt 16 ((s.reg ra).toInt * (s.reg rb).toInt) ∧ OnlyReg rc s t ∧
      t.flags = { s.flags with
        z := decide (t.reg rc = 0)
        c := decide ((s.reg ra).toInt * (s.reg rb).toInt > 2097151 ∨
          (s.reg ra).toInt * (s.reg rb).toInt < -2097151)
        v := decide ((s.reg ra).toInt * (s.reg rb).toInt > 2097151 ∨
          (s.reg ra).toInt * (s.reg rb).toInt < -2097151) } ∧
      t.pc = s.pc + 1 ∧ Quiet s t

/-- With a nonzero divisor register and pc + 1 inside memory DIV completes: the destination gets
sign(a*b) * floor(abs a / abs b) modulo 2^16 (so -32768 / -1 wraps to -32768), Z tells whether
that is 0, C, N and V are kept, nothing else changes but pc. With divisor 0 it reports
DivisionByZero, with no effect. (Formalises R133.) -/
def Obligations.DivWritesTruncatedQuotientOrFaults : Prop :=
  ∀ (ra rb rc : Reg) (s : State),
    (s.reg rb ≠ 0 → s.pc + 1 < s.cfg.memSize →
      ∃ t, exec (.div ra rb rc) s = .next t ∧
        t.reg rc = BitVec.ofInt 16 (((s.reg ra).toInt * (s.reg rb).toInt).sign *
          (((s.reg ra).toInt.natAbs / (s.reg rb).toInt.natAbs : Nat) : Int)) ∧ OnlyReg rc s t ∧
        t.flags = { s.flags with z := decide (t.reg rc = 0) } ∧
        t.pc = s.pc + 1 ∧ Quiet s t) ∧
    (s.reg rb = 0 → exec (.div ra rb rc) s = .fault .divisionByZero)

/-- With pc + 1 inside memory AND, OR, NOR and NOT complete: bit k of the destination is the
conjunction, disjunction, negated disjunction, or (NOT, in place) negation of bit k of the sources
read before the write; no flag and nothing else changes but pc. (Formalises R134, R135, R136,
R137.) -/
def Obligations.LogicInstructionsWriteTheirBits : Prop :=
  ∀ (ra rb rc : Reg) (s : State), s.pc + 1 < s.cfg.memSize →
    (∃ v, Claims.WritesOnly (.and ra rb rc) rc v s ∧
      ∀ k : Nat, v.getLsbD k = ((s.reg ra).getLsbD k && (s.reg rb).getLsbD k)) ∧
    (∃ v, Claims.WritesOnly (.or ra rb rc) rc v s ∧
      ∀ k : Nat, v.getLsbD k = ((s.reg ra).getLsbD k || (s.reg rb).getLsbD k)) ∧
    (∃ v, Claims.WritesOnly (.nor ra rb rc) rc v s ∧
      ∀ k : Nat, k < 16 → v.getLsbD k = !((s.reg ra).getLsbD k || (s.reg rb).getLsbD k)) ∧
    (∃ v, Claims.WritesOnly (.not ra) ra v s ∧
      ∀ k : Nat, k < 16 → v.getLsbD k = !(s.reg ra).getLsbD k)

/-- With pc + 1 inside memory SHL and SHR complete with n the amount register modulo 16: bit k of
SHL's result is bit k - n of the old value, 0 below n; bit k of SHR's result is bit k + n of the
old value, 0 above bit 15; no flag and nothing else changes but pc, also when the amount register
is the shifted one. (Formalises R138, R139.) -/
def Obligations.ShiftsMoveBitsByTheAmountModulo16 : Prop :=
  ∀ (ra rb : Reg) (s : State), s.pc + 1 < s.cfg.memSize →
    (∃ v, Claims.WritesOnly (.shl ra rb) ra v s ∧
      ∀ k : Nat, k < 16 → v.getLsbD k =
        (decide ((s.reg rb).toNat % 16 ≤ k) && (s.reg ra).getLsbD (k - (s.reg rb).toNat % 16))) ∧
    (∃ v, Claims.WritesOnly (.shr ra rb) ra v s ∧
      ∀ k : Nat, k < 16 → v.getLsbD k = (s.reg ra).getLsbD (k + (s.reg rb).toNat % 16))

/-- With pc + 1 inside memory ROL and ROR complete with n the amount register modulo 16: bit (k +
n) mod 16 of ROL's result, and bit k of ROR's result, are bit k, and bit (k + n) mod 16, of the
old value; amount 0 leaves it as it is; no flag and nothing else changes but pc; rotating right
undoes rotating left by the same amount and the other way round. (Formalises R140, R141.) -/
def Obligations.RotatesMoveBitsInACircle : Prop :=
  ∀ (ra rb : Reg) (s : State), s.pc + 1 < s.cfg.memSize →
    (∃ v, Claims.WritesOnly (.rol ra rb) ra v s ∧
      ∀ k : Nat, k < 16 →
        v.getLsbD ((k + (s.reg rb).toNat % 16) % 16) = (s.reg ra).getLsbD k) ∧
    (∃ v, Claims.WritesOnly (.ror ra rb) ra v s ∧
      ∀ k : Nat, k < 16 →
        v.getLsbD k = (s.reg ra).getLsbD ((k + (s.reg rb).toNat % 16) % 16)) ∧
    (ra ≠ rb → s.pc + 2 < s.cfg.memSize → ∃ t u, exec (.rol ra rb) s = .next t ∧
      exec (.ror ra rb) t = .next u ∧ SameRegs s u) ∧
    (ra ≠ rb → s.pc + 2 < s.cfg.memSize → ∃ t u, exec (.ror ra rb) s = .next t ∧
      exec (.rol ra rb) t = .next u ∧ SameRegs s u)

/-- With its address inside memory JUMP completes with pc at that address, whatever pc was, its
own address included, and changes nothing else; with an address at or above MEM_SIZE it reports
AddressOutOfRange(a27). (Formalises R160.) -/
def Obligations.JumpGoesToItsAddress : Prop :=
  ∀ (a : Nat) (s : State),
    (a < s.cfg.memSize → Claims.GoesTo (.jump a) a s.flags s) ∧
    (s.cfg.memSize ≤ a → exec (.jump a) s = .fault (.addressOutOfRange a))

/-- With Z = 1 BEQ completes at its address, or reports AddressOutOfRange for it; with Z = 0 it
completes at pc + 1 whatever its address is, or reports AddressOutOfRange(pc + 1); it reads no
register and changes nothing but pc. (Formalises R161.) -/
def Obligations.BeqBranchesOnTheZeroFlag : Prop :=
  ∀ (a : Nat) (s : State),
    (s.flags.z = true → a < s.cfg.memSize → Claims.GoesTo (.beq a) a s.flags s) ∧
    (s.flags.z = true → s.cfg.memSize ≤ a → exec (.beq a) s = .fault (.addressOutOfRange a)) ∧
    (s.flags.z = false → s.pc + 1 < s.cfg.memSize → Claims.GoesTo (.beq a) (s.pc + 1) s.flags s) ∧
    (s.flags.z = false → s.cfg.memSize ≤ s.pc + 1 →
      exec (.beq a) s = .fault (.addressOutOfRange (s.pc + 1)))

/-- With the chosen next pc inside memory BNE, BLT and JLE complete: N is set when the first
register is less than the second as exact signed values, Z when they are equal, taken or not; the
next pc is a23 when they differ (BNE), the first is less (BLT), or less or equal (JLE), and pc + 1
otherwise; C, V and everything else are kept. With the chosen next pc at or above MEM_SIZE they
report AddressOutOfRange of it. (Formalises R162, R163, R164.) -/
def Obligations.CompareBranchesWriteFlagsAndBranch : Prop :=
  Claims.CompareBranch .bne (fun a b => decide (a ≠ b)) ∧
    Claims.CompareBranch .blt (fun a b => decide (a.toInt < b.toInt)) ∧
    Claims.CompareBranch .jle (fun a b => decide (a.toInt ≤ b.toInt))

/-- With a free stack slot and a target inside memory CALL completes: the word at the old SP is pc
+ 1 (where pc + 1 fits 32 bits; where it does not, which only pc = 2^32 - 1 allows, the spec
states no word and the model leaves it free, log entry 6), SP is one higher, pc is the target,
nothing else changes. A full stack is reported first, then a target outside memory. (Rests on
42_control_flow.md R165, 20_memory.md R56.) -/
def Obligations.CallPushesTheReturnAddress : Prop :=
  ∀ (a : Nat) (s : State),
    (s.sp < s.cfg.memSize → a < s.cfg.memSize →
      ∃ t, exec (.call a) s = .next t ∧ t.pc = a ∧ t.sp = s.sp + 1 ∧
        (s.pc + 1 < 2 ^ 32 → (memGet t.mem s.sp).toNat = s.pc + 1) ∧ OnlyMem s.sp s t ∧
        SameRegs s t ∧ t.flags = s.flags ∧ t.events = s.events ∧ SameEngine s t) ∧
    (s.sp = s.cfg.memSize → exec (.call a) s = .fault .stackFull) ∧
    (s.sp < s.cfg.memSize → s.cfg.memSize ≤ a → exec (.call a) s = .fault (.addressOutOfRange a))

/-- With an occupied stack whose top word v is an address of memory RET completes: pc is v, SP is
one lower, the popped slot reads 0, nothing else changes. An empty stack reports StackEmpty; a top
word at or above MEM_SIZE, all 32 bits counted, reports AddressOutOfRange(v) and pops nothing.
(Formalises R166.) -/
def Obligations.RetGoesToThePoppedWord : Prop :=
  ∀ s : State,
    (s.cfg.stackBase < s.sp → (memGet s.mem (s.sp - 1)).toNat < s.cfg.memSize →
      ∃ t, exec .ret s = .next t ∧ t.pc = (memGet s.mem (s.sp - 1)).toNat ∧ t.sp + 1 = s.sp ∧
        memGet t.mem (s.sp - 1) = 0 ∧ OnlyMem (s.sp - 1) s t ∧
        SameRegs s t ∧ t.flags = s.flags ∧ t.events = s.events ∧ SameEngine s t) ∧
    (s.sp = s.cfg.stackBase → exec .ret s = .fault .stackEmpty) ∧
    (s.cfg.stackBase < s.sp → s.cfg.memSize ≤ (memGet s.mem (s.sp - 1)).toNat →
      exec .ret s = .fault (.addressOutOfRange (memGet s.mem (s.sp - 1)).toNat))

/-- From a state that meets the invariant, with room on the stack, pc + 1 and the target inside
memory: CALL completes, RET at the state it leaves completes, and afterwards pc is one past the
CALL, and SP, every memory word, every register and every flag are as before the CALL. (Rests on
42_control_flow.md R165, 42_control_flow.md R166, 42_control_flow.md R168, 90_conflicts.md C5.) -/
def Obligations.RetUndoesCall : Prop :=
  ∀ (a : Nat) (s : State), s.Inv → s.sp < s.cfg.memSize → a < s.cfg.memSize →
    s.pc + 1 < s.cfg.memSize →
    ∃ t u, exec (.call a) s = .next t ∧ exec .ret t = .next u ∧ u.pc = s.pc + 1 ∧
      SameRegs s u ∧ u.flags = s.flags ∧ Quiet s u

/-- With the address and pc + 1 inside memory, w the word read, tag = w / 2^21 and pay = w mod
2^21: a raw word (tag 0, or 6 or more, the opcode bits counted) loads its low 16 bits; a Boolean
loads 0 or 1, a Natural, Integer (signed 21 bits) and Char (up to 0x10FFFF) load modulo 2^16;
nothing else changes but pc. A Float and a Char above 0x10FFFF report InvalidEncoding(tag, pay);
an address at or above MEM_SIZE reports AddressOutOfRange. (Formalises R93, R94, R180.) -/
def Obligations.LoadReadsRawWordsAndLiterals : Prop :=
  ∀ (ra : Reg) (a : Nat) (s : State),
    (s.cfg.memSize ≤ a → exec (.load ra a) s = .fault (.addressOutOfRange a)) ∧
    (a < s.cfg.memSize → s.pc + 1 < s.cfg.memSize →
      let w := (memGet s.mem a).toNat
      let tag := w / 2 ^ 21
      let pay := w % 2 ^ 21
      (tag = 0 ∨ 6 ≤ tag → Claims.Loads ra a (BitVec.ofNat 16 w) s) ∧
      (tag = 1 → Claims.Loads ra a (if pay = 0 then 0 else 1) s) ∧
      (tag = 2 → Claims.Loads ra a (BitVec.ofNat 16 pay) s) ∧
      (tag = 3 → Claims.Loads ra a (BitVec.ofInt 16 (Claims.signed21 pay)) s) ∧
      (tag = 4 → exec (.load ra a) s = .fault (.invalidEncoding 4 (BitVec.ofNat 21 pay))) ∧
      (tag = 5 → pay ≤ 0x10FFFF → Claims.Loads ra a (BitVec.ofNat 16 pay) s) ∧
      (tag = 5 → 0x10FFFF < pay →
        exec (.load ra a) s = .fault (.invalidEncoding 5 (BitVec.ofNat 21 pay))))

/-- With an address below STACK_BASE and pc + 1 inside memory STORE and STORER complete: the
addressed word has the register's signed value, every other word, register, flag, SP and event is
unchanged, and pc advances. At or above MEM_SIZE they report AddressOutOfRange, in the stack
region StackRegionViolation. (Formalises R181, R182.) -/
def Obligations.StoresWriteTheSignedRegisterValue : Prop :=
  ∀ (ra : Reg) (a : Nat) (s : State), ∀ i ∈ [Instr.store ra a, .storer ra a],
    (a < s.cfg.stackBase → s.pc + 1 < s.cfg.memSize → Claims.Stores i ra a s) ∧
    (s.cfg.memSize ≤ a → exec i s = .fault (.addressOutOfRange a)) ∧
    (s.cfg.stackBase ≤ a → a < s.cfg.memSize → exec i s = .fault (.stackRegionViolation a))

/-- With pc + 1 inside memory MOVE and LOADR complete: the first register gets the value of the
second, no flag, no memory and no other register changes, and pc advances. (Formalises R183,
R184.) -/
def Obligations.MoveAndLoadrCopyTheSecondRegister : Prop :=
  ∀ (ra rb : Reg) (s : State), s.pc + 1 < s.cfg.memSize →
    Claims.WritesOnly (.move ra rb) ra (s.reg rb) s ∧
    Claims.WritesOnly (.loadr ra rb) ra (s.reg rb) s

/-- With ordinary memory at the address and two more addresses after pc, STORE (or STORER) of one
register and then LOAD of that address into another complete and give that register the same
pattern; with a free stack slot so do PUSH and POP; and the word a register is stored as is never
a typed literal: it is below 2^15 or at least 0xFFFF8000. (Formalises R185.) -/
def Obligations.RegisterValuesRoundTripThroughMemory : Prop :=
  (∀ (ra rb : Reg) (a : Nat) (s : State), a < s.cfg.stackBase → s.pc + 2 < s.cfg.memSize →
      ∀ i ∈ [Instr.store ra a, .storer ra a],
        ∃ t u, exec i s = .next t ∧ exec (.load rb a) t = .next u ∧ u.reg rb = s.reg ra) ∧
    (∀ (ra rb : Reg) (s : State), s.cfg.stackBase ≤ s.sp → s.sp < s.cfg.memSize →
      s.pc + 2 < s.cfg.memSize →
        ∃ t u, exec (.push ra) s = .next t ∧ exec (.pop rb) t = .next u ∧ u.reg rb = s.reg ra) ∧
    ∀ v : Half, isLiteral (sext32 v) = false ∧
      ((sext32 v).toNat < 2 ^ 15 ∨ 0xFFFF8000 ≤ (sext32 v).toNat)

/-- An ordinary write succeeds exactly below STACK_BASE; afterwards a read of the address gives
the written word, a write of 0 included, every other read answers as before, and a fetch at the
written address gives the written word. (Rests on 20_memory.md R52, 20_memory.md R53, 20_memory.md
R61, 20_memory.md R63.) -/
def Obligations.MemoryWordReadsAsLastWritten : Prop :=
  ∀ (s : State) (a : Nat) (v : Word), s.cfg.stackBase ≤ s.cfg.memSize →
    (a < s.cfg.stackBase ↔ ∃ t, s.memWrite a v = .ok t) ∧
    ∀ t, s.memWrite a v = .ok t →
      t.memRead a = .ok v ∧ (∀ b, b ≠ a → t.memRead b = s.memRead b) ∧
      fetch (t.setPc a) = .ok v

/-- IN completes at every pc, the last one included: the engine is AwaitingInput(ra, mode) with pc
at the IN and nothing else changed. From there step() and run_to_halt_or_input() do nothing;
another register's index is refused with InvalidRegisterIndex; with pc + 1 outside memory the
right index reports AddressOutOfRange; otherwise, for an IN met in STEP mode, the register gets
the value modulo 2^16, pc advances and the engine is Running; for one met in RUN mode the run loop
then resumes from that state. (Formalises R200.) -/
def Obligations.InSuspendsUntilItsInputIsProvided : Prop :=
  ∀ (ra : Reg) (s : State), ∃ t, exec (.inp ra) s = .next t ∧
    t.run = .awaitingInput ra s.mode ∧ t.pc = s.pc ∧ SameRegs s t ∧ t.flags = s.flags ∧
    SameMem s t ∧ t.sp = s.sp ∧ t.events = s.events ∧ t.mode = s.mode ∧ t.cfg = s.cfg ∧
    hostCall .step t = (.notRunning t.run, t) ∧
    ∀ (i v : Int) (fuel : Nat),
      hostCall (.runToHaltOrInput fuel) t = (.notRunning t.run, t) ∧
      (i ≠ ra.number →
        hostCall (.provideInput i v fuel) t = (.error (.invalidRegisterIndex i), t)) ∧
      (i = ra.number → s.cfg.memSize ≤ s.pc + 1 →
        hostCall (.provideInput i v fuel) t = (.error (.addressOutOfRange (s.pc + 1)), t)) ∧
      (i = ra.number → s.pc + 1 < s.cfg.memSize → ∃ u, Claims.InputTaken ra v t u ∧
        (s.mode = .step → hostCall (.provideInput i v fuel) t = (.resumed, u)) ∧
        (s.mode = .run → hostCall (.provideInput i v fuel) t = hostCall (.runToHaltOrInput fuel) u))

/-- When the engine is not AwaitingInput it answers Refused(NotAwaitingInput). In AwaitingInput(r,
mode): an index outside 0..3, or another register's, reports InvalidRegisterIndex; then pc + 1 at
or above MEM_SIZE reports AddressOutOfRange; each leaves the state as it was. Otherwise r gets the
value modulo 2^16, pc advances, the engine is Running and nothing else changes: in STEP mode the
answer is Resumed, in RUN mode it is that of the run loop from there. (Formalises R116.) -/
def Obligations.ProvideInputCompletesOnlyThePendingIn : Prop :=
  ∀ (i v : Int) (fuel : Nat) (s : State),
    ((∀ r m, s.run ≠ .awaitingInput r m) →
      hostCall (.provideInput i v fuel) s = (.refusedNotAwaitingInput, s)) ∧
    ∀ (r : Reg) (m : RunMode), s.run = .awaitingInput r m →
      (i < 0 ∨ i > 3 ∨ i ≠ r.number →
        hostCall (.provideInput i v fuel) s = (.error (.invalidRegisterIndex i), s)) ∧
      (i = r.number → s.cfg.memSize ≤ s.pc + 1 →
        hostCall (.provideInput i v fuel) s = (.error (.addressOutOfRange (s.pc + 1)), s)) ∧
      (i = r.number → s.pc + 1 < s.cfg.memSize → ∃ u, Claims.InputTaken r v s u ∧
        (m = .step → hostCall (.provideInput i v fuel) s = (.resumed, u)) ∧
        (m = .run → hostCall (.provideInput i v fuel) s = hostCall (.runToHaltOrInput fuel) u))

/-- With pc + 1 inside memory OUT completes: one event Out(v), v the register's signed value,
follows the earlier events; no register, flag, memory word or SP changes, and pc advances.
(Formalises R201.) -/
def Obligations.OutEmitsTheSignedValue : Prop :=
  ∀ (ra : Reg) (s : State), s.pc + 1 < s.cfg.memSize →
    ∃ t, exec (.out ra) s = .next t ∧ t.events = s.events ++ [.out (s.reg ra).toInt] ∧
      SameRegs s t ∧ t.flags = s.flags ∧ t.pc = s.pc + 1 ∧ SameMem s t ∧ t.sp = s.sp ∧ SameEngine s t

/-- With a free slot and pc + 1 inside memory PUSH completes: the word at the old SP has the
register's signed value, 0 occupying a slot like any other, SP is one higher, every other word,
register and flag is unchanged. A full stack reports StackFull. (Formalises R202.) -/
def Obligations.PushStoresAtTheStackPointer : Prop :=
  ∀ (ra : Reg) (s : State),
    (s.sp < s.cfg.memSize → s.pc + 1 < s.cfg.memSize →
      ∃ t, exec (.push ra) s = .next t ∧ (memGet t.mem s.sp).toInt = (s.reg ra).toInt ∧
        OnlyMem s.sp s t ∧ t.sp = s.sp + 1 ∧ SameRegs s t ∧ t.flags = s.flags ∧ t.pc = s.pc + 1 ∧
        t.events = s.events ∧ SameEngine s t) ∧
    (s.sp = s.cfg.memSize → exec (.push ra) s = .fault .stackFull)

/-- With an occupied slot and pc + 1 inside memory POP completes: the register gets the low 16
bits of the word at SP - 1, never decoded as a literal, SP is one lower, the popped slot reads 0,
every other word, register and flag is unchanged. An empty stack reports StackEmpty. (Formalises
R203.) -/
def Obligations.PopTakesTheTopSlotAndClearsIt : Prop :=
  ∀ (ra : Reg) (s : State),
    (s.cfg.stackBase < s.sp → s.pc + 1 < s.cfg.memSize →
      ∃ t, exec (.pop ra) s = .next t ∧
        t.reg ra = BitVec.ofNat 16 (memGet s.mem (s.sp - 1)).toNat ∧ OnlyReg ra s t ∧
        t.sp + 1 = s.sp ∧ memGet t.mem (s.sp - 1) = 0 ∧ OnlyMem (s.sp - 1) s t ∧
        t.flags = s.flags ∧ t.pc = s.pc + 1 ∧ t.events = s.events ∧ SameEngine s t) ∧
    (s.sp = s.cfg.stackBase → exec (.pop ra) s = .fault .stackEmpty)

/-- For every list of words, zeros included, that fits between SP and MEM_SIZE: pushing them all
succeeds, popping as many succeeds and gives them in exact reverse order, and afterwards SP is
back, every word outside those slots reads as before, and the slots read 0. (Rests on 20_memory.md
R56, 20_memory.md R57, 90_conflicts.md C6.) -/
def Obligations.PoppedWordsComeInReverseOrder : Prop :=
  ∀ (ws : List Word) (s : State), s.cfg.stackBase ≤ s.sp → s.sp + ws.length ≤ s.cfg.memSize →
    ∃ t u, Claims.pushAll ws s = .ok t ∧ t.sp = s.sp + ws.length ∧
      Claims.popAll ws.length t = .ok (ws.reverse, u) ∧ u.sp = s.sp ∧
      (∀ a, a < s.sp ∨ s.sp + ws.length ≤ a → memGet u.mem a = memGet s.mem a) ∧
      ∀ a, s.sp ≤ a → a < s.sp + ws.length → memGet u.mem a = 0

/-- With pc + 1 inside memory CMP completes, in both carry modes: Z tells equality, N whether the
first register is less as exact signed values, C is N in mode AS_NEGATIVE and the unsigned borrow
in mode UNSIGNED_BORROW, V is set when the exact difference is outside -32768..32767; no register
and nothing else changes but pc. (Formalises R220.) -/
def Obligations.CmpWritesAllFourFlags : Prop :=
  ∀ (ra rb : Reg) (s : State), s.pc + 1 < s.cfg.memSize →
    ∃ t, exec (.cmp ra rb) s = .next t ∧
      t.flags.z = decide (s.reg ra = s.reg rb) ∧
      t.flags.n = decide ((s.reg ra).toInt < (s.reg rb).toInt) ∧
      (s.cfg.cmpCarry = .asNegative → t.flags.c = t.flags.n) ∧
      (s.cfg.cmpCarry = .unsignedBorrow → t.flags.c = decide ((s.reg ra).toNat < (s.reg rb).toNat)) ∧
      t.flags.v = decide ((s.reg ra).toInt - (s.reg rb).toInt < -32768 ∨
        (s.reg ra).toInt - (s.reg rb).toInt > 32767) ∧
      SameRegs s t ∧ t.pc = s.pc + 1 ∧ Quiet s t

/-- With pc + 1 inside memory CLR completes and changes nothing but pc, the register it names
included; with pc + 1 at or above MEM_SIZE it reports AddressOutOfRange(pc + 1). (Formalises
R221.) -/
def Obligations.ClrChangesNothingButPc : Prop :=
  ∀ (ra : Reg) (s : State),
    (s.pc + 1 < s.cfg.memSize → Claims.GoesTo (.clr ra) (s.pc + 1) s.flags s) ∧
    (s.cfg.memSize ≤ s.pc + 1 → exec (.clr ra) s = .fault (.addressOutOfRange (s.pc + 1)))

/-- With pc + 1 inside memory NOP completes for tag 1 (Boolean: payload not 0), 2 (Natural), 3
(Integer, signed 21 bits), 4 (Float, the payload) and 5 (Char, payload at most 0x10FFFF): it emits
that Literal and changes nothing else but pc. For tag 0, tags 6 to 63 and a Char payload above
0x10FFFF it reports InvalidEncoding(tag, pay) at every pc. (Formalises R90, R222.) -/
def Obligations.NopEmitsItsTypedLiteral : Prop :=
  ∀ (tag : BitVec 6) (pay : BitVec 21) (s : State),
    (s.pc + 1 < s.cfg.memSize →
      (tag = 1 → Claims.Emits tag pay (.boolean (decide (pay.toNat ≠ 0))) s) ∧
      (tag = 2 → Claims.Emits tag pay (.natural pay.toNat) s) ∧
      (tag = 3 → Claims.Emits tag pay (.integer (Claims.signed21 pay.toNat)) s) ∧
      (tag = 4 → Claims.Emits tag pay (.float pay) s) ∧
      (tag = 5 → pay.toNat ≤ 0x10FFFF → Claims.Emits tag pay (.char pay.toNat) s)) ∧
    (tag.toNat = 0 ∨ 6 ≤ tag.toNat ∨ (tag = 5 ∧ 0x10FFFF < pay.toNat) →
      exec (.nop tag pay) s = .fault (.invalidEncoding tag pay))

/-- Every Boolean, Natural below 2^21, Integer in -2^20..2^20-1 and Char up to 0x10FFFF has an
encoding that decodes to it, and a value outside its domain has none. The Float clause is the
model's choice (log entries 14 and 15): a Float is held and encoded as its 21-bit payload, and
every payload has an encoding that decodes to it; it says nothing of the lossy round trip of a
Float value (R92). (Rests on 30_encoding.md R90, 30_encoding.md R92.) -/
def Obligations.TypedValuesDecodeToWhatWasEncoded : Prop :=
  ∀ tv : TypedValue,
    (∀ tag pay, encodeTyped tv = some (tag, pay) → decodeTyped tag pay = .ok tv) ∧
    (encodeTyped tv = none ↔
      (∃ n, tv = .natural n ∧ 2 ^ 21 ≤ n) ∨ (∃ i, tv = .integer i ∧ (i < -2 ^ 20 ∨ 2 ^ 20 ≤ i)) ∨
      ∃ c, tv = .char c ∧ 0x10FFFF < c)

/-- For every Float payload pay with sign pay[20], exponent e = pay[19:12] and mantissa m =
pay[11:0]: exponent 255 is infinity (m = 0) or NaN, exponent 0 is m * 2^-138 with the sign, any
other is (2^12 + m) * 2^(e-139), each written on binary32's scale (times 2^11, exponent less 11);
and the payload of its binary32 word is the payload. (Rests on 30_encoding.md R91,
93_implementation_defined.md G2.) -/
def Obligations.FloatPayloadsHaveTheirBinary32Value : Prop :=
  ∀ pay : BitVec 21,
    let neg := decide (2 ^ 20 ≤ pay.toNat)
    let e : Nat := pay.toNat / 2 ^ 12 % 2 ^ 8
    let m : Nat := pay.toNat % 2 ^ 12
    (e = 255 → m = 0 → floatValue pay = .infinity neg) ∧
    (e = 255 → m ≠ 0 → floatValue pay = .nan) ∧
    (e = 0 → floatValue pay = .finite neg (m * 2 ^ 11) (-138 - 11)) ∧
    (e ≠ 0 → e ≠ 255 → floatValue pay = .finite neg ((2 ^ 12 + m) * 2 ^ 11) ((e : Int) - 139 - 11)) ∧
    floatPayload (floatWord pay) = pay

/-- HALT completes at every pc, the last one included: the engine is Halted, pc stays at the HALT,
nothing else changes; from there every Step, step() and run_to_halt_or_input() do nothing, and
provide_input is refused; reset() and an accepted load_image make the engine Running again.
(Formalises R223.) -/
def Obligations.HaltStopsAtItsOwnAddress : Prop :=
  ∀ s : State, ∃ t, exec .halt s = .next t ∧ t.run = .halted ∧ t.pc = s.pc ∧ SameRegs s t ∧
    t.flags = s.flags ∧ SameMem s t ∧ t.sp = s.sp ∧ t.events = s.events ∧ t.mode = s.mode ∧
    t.cfg = s.cfg ∧ hostCall .step t = (.notRunning .halted, t) ∧
    (∀ fuel : Nat, hostCall (.runToHaltOrInput fuel) t = (.notRunning .halted, t)) ∧
    (∀ (i v : Int) (fuel : Nat), hostCall (.provideInput i v fuel) t = (.refusedNotAwaitingInput, t)) ∧
    (hostCall .reset t).2.run = .running ∧
    ∀ base words, Claims.ImageFits s.cfg base words → (hostCall (.loadImage base words) t).2.run = .running

/-- An image that fits (below STACK_BASE, or empty at an address of memory) is accepted: word j is
at base + j, every other word reads as before, pc is the base, the engine is Running, and
registers, flags, SP and events are kept. An empty image at a base outside memory reports
AddressOutOfRange(base); any other that does not fit reports its first address outside ordinary
memory, as AddressOutOfRange at or above MEM_SIZE and StackRegionViolation below it; a refused
image changes nothing. (Formalises R119.) -/
def Obligations.LoadImagePlacesAllWordsOrNone : Prop :=
  ∀ (base : Nat) (words : List Word) (s : State),
    (Claims.ImageFits s.cfg base words →
      ∃ t, hostCall (.loadImage base words) s = (.done, t) ∧
        (∀ j (h : j < words.length), memGet t.mem (base + j) = words[j]) ∧
        (∀ a, a < base ∨ base + words.length ≤ a → memGet t.mem a = memGet s.mem a) ∧
        t.pc = base ∧ t.run = .running ∧ SameRegs s t ∧ t.flags = s.flags ∧ t.sp = s.sp ∧
        t.events = s.events ∧ t.mode = s.mode ∧ t.cfg = s.cfg) ∧
    (words = [] → s.cfg.memSize ≤ base →
      hostCall (.loadImage base words) s = (.error (.addressOutOfRange base), s)) ∧
    (words ≠ [] → s.cfg.stackBase < base + words.length →
      hostCall (.loadImage base words) s =
        (.error (if s.cfg.memSize ≤ max base s.cfg.stackBase
          then .addressOutOfRange (max base s.cfg.stackBase)
          else .stackRegionViolation (max base s.cfg.stackBase)), s))

/-- From every state, reset() and then load_image of an image that fits leave the engine Running
at the base with an empty stack, the image in place, every other word 0 and no event emitted.
(Rests on 70_reset_and_hazards.md R272, 70_reset_and_hazards.md R274.) -/
def Obligations.ResetThenLoadImageIsACleanLaunch : Prop :=
  ∀ (base : Nat) (words : List Word) (s : State), Claims.ImageFits s.cfg base words →
    ∃ t, hostCall (.loadImage base words) (hostCall .reset s).2 = (.done, t) ∧
      CleanLaunch base words t

/-- For a Running engine: before a word 0 the loop stops with StoppedAtSentinel(pc) and changes
nothing; otherwise it performs one Step in mode RUN and ends with the error and the state
unchanged, with Halted, with AwaitingInput(r), or goes on from the state after the Step, with one
Step less of fuel. (Rests on 40_engine.md R117, 60_exceptions.md R247.) -/
def Obligations.RunLoopRepeatsTheStep : Prop :=
  ∀ (fuel : Nat) (s : State), s.run = .running →
    (memGet s.mem s.pc = 0 →
      hostCall (.runToHaltOrInput (fuel + 1)) s = (.stoppedAtSentinel s.pc, s)) ∧
    (memGet s.mem s.pc ≠ 0 →
      (∀ e, step (s.setMode .run) = .fault e →
        hostCall (.runToHaltOrInput (fuel + 1)) s = (.error e, s)) ∧
      ∀ t, step (s.setMode .run) = .next t →
        (t.run = .halted → hostCall (.runToHaltOrInput (fuel + 1)) s = (.halted, t)) ∧
        (∀ r m, t.run = .awaitingInput r m →
          hostCall (.runToHaltOrInput (fuel + 1)) s = (.awaitingInput r, t)) ∧
        (t.run = .running →
          hostCall (.runToHaltOrInput (fuel + 1)) s = hostCall (.runToHaltOrInput fuel) t))

/-- Fuel is the model's own bound on the loop (D24): if run_to_halt_or_input() answers anything
but NotFinished within some fuel, it gives the same answer and the same state with any more fuel;
so NotFinished is never mistaken for an end of the run. (Rests on 40_engine.md R117,
92_eei_decisions.md D24.) -/
def Obligations.RunLoopAnswerDoesNotDependOnFuel : Prop :=
  ∀ (fuel more : Nat) (s : State), (hostCall (.runToHaltOrInput fuel) s).1 ≠ .notFinished →
    hostCall (.runToHaltOrInput (fuel + more)) s = hostCall (.runToHaltOrInput fuel) s

/-- For all legal parameters, a Step straight after reset fetches 0 and reports InvalidEncoding(0,
0), and run_to_halt_or_input() returns StoppedAtSentinel(0); both leave the state as it was.
(Rests on 70_reset_and_hazards.md R271, 45_compare_misc.md R222.) -/
def Obligations.FirstStepAfterResetFaults : Prop :=
  ∀ c : Config, c.Valid →
    step (State.ofConfig c) = .fault (.invalidEncoding 0 0) ∧
    hostCall .step (State.ofConfig c) = (.error (.invalidEncoding 0 0), State.ofConfig c) ∧
    ∀ fuel : Nat, hostCall (.runToHaltOrInput (fuel + 1)) (State.ofConfig c) =
      (.stoppedAtSentinel 0, State.ofConfig c)

/-- read_register(i) gives the signed value of register i for i in 0..3 and
InvalidRegisterIndex(i) for every other integer; read_flag gives the named flag; read_memory gives
the word, or AddressOutOfRange at or above MEM_SIZE; get_cp gives pc; each leaves the state as it
was. (Formalises R121.) -/
def Obligations.HostReadsReportAndChangeNothing : Prop :=
  ∀ s : State,
    (∀ r : Reg, hostCall (.readRegister r.number) s = (.value (s.reg r).toInt, s)) ∧
    (∀ i : Int, i < 0 ∨ i > 3 →
      hostCall (.readRegister i) s = (.error (.invalidRegisterIndex i), s)) ∧
    hostCall (.readFlag .carry) s = (.bit s.flags.c, s) ∧
    hostCall (.readFlag .zero) s = (.bit s.flags.z, s) ∧
    hostCall (.readFlag .negative) s = (.bit s.flags.n, s) ∧
    hostCall (.readFlag .overflow) s = (.bit s.flags.v, s) ∧
    (∀ a, a < s.cfg.memSize → hostCall (.readMemory a) s = (.word (memGet s.mem a), s)) ∧
    (∀ a, s.cfg.memSize ≤ a → hostCall (.readMemory a) s = (.error (.addressOutOfRange a), s)) ∧
    hostCall .getCp s = (.address s.pc, s)

end
end

