-- ==== Sys2Proof/Laws/Decode.lean ====
section
/-! SUPPORT. The decoder and the encoder: the two number maps are inverse to each other, and what the
decoder reads from a packed word. -/

namespace Sys2Proof

theorem Reg.number_lt (r : Reg) : r.number < 4 := by cases r <;> decide

@[simp] theorem Reg.ofNumber_number (r : Reg) : Reg.ofNumber r.number = r := by cases r <;> rfl

theorem Reg.number_ofNumber {n : Nat} (h : n < 4) : (Reg.ofNumber n).number = n := by
  obtain rfl | rfl | rfl | rfl : n = 0 ∨ n = 1 ∨ n = 2 ∨ n = 3 := by omega
  all_goals rfl

theorem Opcode.number_lt (op : Opcode) : op.number < 32 := by cases op <;> decide

@[simp] theorem Opcode.ofNumber_number (op : Opcode) : Opcode.ofNumber op.number = op := by
  cases op <;> rfl

/-- No opcode number falls through to a neighbour (30_encoding.md R95, R96). -/
theorem Opcode.number_ofNumber {n : Nat} (h : n < 32) : (Opcode.ofNumber n).number = n := by
  interval_cases n <;> rfl

theorem pack_toNat (op : Opcode) {area : Nat} (h : area < 2 ^ 27) :
    (pack op area).toNat = op.number * 2 ^ 27 + area := by
  have := op.number_lt
  simp only [pack, BitVec.toNat_ofNat]
  omega

/-- The fields of a packed word, each from the operand area alone (30_encoding.md R86). -/
theorem fieldsOf_pack (op : Opcode) {area : Nat} (h : area < 2 ^ 27) :
    fieldsOf (pack op area) =
      { op := op
        ra := Reg.ofNumber (area / 2 ^ 25)
        rb := Reg.ofNumber (area / 2 ^ 23 % 4)
        rc := Reg.ofNumber (area / 2 ^ 21 % 4)
        a27 := area
        a25 := area % 2 ^ 25
        a23 := area % 2 ^ 23
        tag := BitVec.ofNat 6 (area / 2 ^ 21)
        pay := BitVec.ofNat 21 (area % 2 ^ 21) } := by
  have ho := op.number_lt
  simp only [fieldsOf, slice, pack_toNat op h]
  obtain ⟨n, hw⟩ : ∃ n, n = op.number := ⟨_, rfl⟩
  rw [← hw] at ho ⊢
  have e1 : (n * 2 ^ 27 + area) / 2 ^ 27 % 2 ^ (31 + 1 - 27) = n := by omega
  have e2 : (n * 2 ^ 27 + area) / 2 ^ 25 % 2 ^ (26 + 1 - 25) = area / 2 ^ 25 := by omega
  have e3 : (n * 2 ^ 27 + area) / 2 ^ 23 % 2 ^ (24 + 1 - 23) = area / 2 ^ 23 % 4 := by omega
  have e4 : (n * 2 ^ 27 + area) / 2 ^ 21 % 2 ^ (22 + 1 - 21) = area / 2 ^ 21 % 4 := by omega
  have e5 : (n * 2 ^ 27 + area) / 2 ^ 0 % 2 ^ (26 + 1 - 0) = area := by omega
  have e6 : (n * 2 ^ 27 + area) / 2 ^ 0 % 2 ^ (24 + 1 - 0) = area % 2 ^ 25 := by omega
  have e7 : (n * 2 ^ 27 + area) / 2 ^ 0 % 2 ^ (22 + 1 - 0) = area % 2 ^ 23 := by omega
  have e8 : (n * 2 ^ 27 + area) / 2 ^ 21 % 2 ^ (26 + 1 - 21) = area / 2 ^ 21 := by omega
  have e9 : (n * 2 ^ 27 + area) / 2 ^ 0 % 2 ^ (20 + 1 - 0) = area % 2 ^ 21 := by omega
  rw [e1, e2, e3, e4, e5, e6, e7, e8, e9, hw, Opcode.ofNumber_number]

/-- Decoding a packed word, with its fields written out. -/
theorem decode_pack (op : Opcode) {area : Nat} (h : area < 2 ^ 27) :
    decode (pack op area) =
      Fields.instr
        { op := op
          ra := Reg.ofNumber (area / 2 ^ 25)
          rb := Reg.ofNumber (area / 2 ^ 23 % 4)
          rc := Reg.ofNumber (area / 2 ^ 21 % 4)
          a27 := area
          a25 := area % 2 ^ 25
          a23 := area % 2 ^ 23
          tag := BitVec.ofNat 6 (area / 2 ^ 21)
          pay := BitVec.ofNat 21 (area % 2 ^ 21) } := by
  rw [decode, fieldsOf_pack op h]

end Sys2Proof
end

