-- ==== Sys2Proof/Laws/Memory.lean ====
section
/-! SUPPORT. The memory: read after write, and the canonical form, which every operation keeps. -/

namespace Sys2Proof.Machine

/-! ### Read after write -/

theorem memErase_cons (b : Nat) (w : Word) (m : Memory) (a : Nat) :
    memErase ((b, w) :: m) a = if b = a then memErase m a else (b, w) :: memErase m a := by
  by_cases h : b = a <;> simp [memErase, h]

theorem memGet_memErase_same (m : Memory) (a : Nat) : memGet (memErase m a) a = 0 := by
  induction m with
  | nil => rfl
  | cons c m ih =>
    obtain ⟨b, w⟩ := c
    rw [memErase_cons]
    by_cases h : b = a
    · simp [h, ih]
    · simp [h, memGet, Ne.symm h, ih]

theorem memGet_memErase_other (m : Memory) {a x : Nat} (h : x ≠ a) :
    memGet (memErase m a) x = memGet m x := by
  induction m with
  | nil => rfl
  | cons c m ih =>
    obtain ⟨b, w⟩ := c
    rw [memErase_cons]
    by_cases hb : b = a
    · subst hb; simp [memGet, h, ih]
    · simp [hb, memGet, ih]

theorem memGet_memInsert_other (m : Memory) {a x : Nat} (v : Word) (h : x ≠ a) :
    memGet (memInsert m a v) x = memGet m x := by
  induction m with
  | nil => simp [memInsert, memGet, h]
  | cons c m ih =>
    obtain ⟨b, w⟩ := c
    by_cases hb : a < b
    · simp [memInsert, hb, memGet, h]
    · simp [memInsert, hb, memGet, ih]

theorem memGet_memInsert_same (m : Memory) (a : Nat) (v : Word) (h : ∀ c ∈ m, c.1 ≠ a) :
    memGet (memInsert m a v) a = v := by
  induction m with
  | nil => simp [memInsert, memGet]
  | cons c m ih =>
    obtain ⟨b, w⟩ := c
    have hb : b ≠ a := h (b, w) List.mem_cons_self
    by_cases hlt : a < b
    · simp [memInsert, hlt, memGet]
    · simp [memInsert, hlt, memGet, Ne.symm hb, ih fun c hc => h c (List.mem_cons_of_mem _ hc)]

theorem memErase_absent (m : Memory) (a : Nat) : ∀ c ∈ memErase m a, c.1 ≠ a := by
  intro c hc
  simpa [memErase] using (List.mem_filter.mp hc).2

@[simp] theorem memGet_memSet_same (m : Memory) (a : Nat) (v : Word) : memGet (memSet m a v) a = v := by
  unfold memSet
  split
  · next h => rw [memGet_memErase_same, h]
  · exact memGet_memInsert_same _ _ _ (memErase_absent m a)

theorem memGet_memSet_other (m : Memory) {a x : Nat} (v : Word) (h : x ≠ a) :
    memGet (memSet m a v) x = memGet m x := by
  unfold memSet
  split
  · exact memGet_memErase_other m h
  · rw [memGet_memInsert_other _ _ h, memGet_memErase_other m h]

theorem memGet_memSet (m : Memory) (a x : Nat) (v : Word) :
    memGet (memSet m a v) x = if x = a then v else memGet m x := by
  split
  · next h => rw [h, memGet_memSet_same]
  · next h => exact memGet_memSet_other m v h

/-! ### The canonical form -/

/-- The canonical form as a recursion on the head: the head is not 0 and lies below every later cell. -/
theorem wf_cons (a : Nat) (w : Word) (m : Memory) :
    Memory.wf ((a, w) :: m) = true ↔ w ≠ 0 ∧ (∀ c ∈ m, a < c.1) ∧ Memory.wf m = true := by
  induction m generalizing a w with
  | nil => simp [Memory.wf]
  | cons c m ih =>
    obtain ⟨b, u⟩ := c
    have hb := ih b u
    simp only [Memory.wf, Bool.and_eq_true, decide_eq_true_eq]
    constructor
    · rintro ⟨⟨hw, hab⟩, hm⟩
      refine ⟨hw, ?_, hm⟩
      intro c hc
      rcases List.mem_cons.mp hc with rfl | hc
      · exact hab
      · exact lt_trans hab ((hb.mp hm).2.1 c hc)
    · rintro ⟨hw, hall, hm⟩
      exact ⟨⟨hw, hall (b, u) List.mem_cons_self⟩, hm⟩

theorem memErase_wf (m : Memory) (a : Nat) (h : Memory.wf m = true) : Memory.wf (memErase m a) = true := by
  induction m with
  | nil => rfl
  | cons c m ih =>
    obtain ⟨b, w⟩ := c
    obtain ⟨hw, hlt, hm⟩ := (wf_cons b w m).mp h
    rw [memErase_cons]
    split
    · exact ih hm
    · exact (wf_cons _ _ _).mpr ⟨hw, fun c hc => hlt c (List.mem_filter.mp hc).1, ih hm⟩

theorem mem_memInsert {m : Memory} {a : Nat} {v : Word} {c : Cell} (h : c ∈ memInsert m a v) :
    c = (a, v) ∨ c ∈ m := by
  induction m with
  | nil => exact .inl (by simpa [memInsert] using h)
  | cons d m ih =>
    obtain ⟨b, w⟩ := d
    by_cases hb : a < b
    · simpa [memInsert, hb] using h
    · simp only [memInsert, hb, if_false, List.mem_cons] at h
      rcases h with h | h
      · exact .inr (by simp [h])
      · rcases ih h with h | h
        · exact .inl h
        · exact .inr (List.mem_cons_of_mem _ h)

theorem memInsert_wf (m : Memory) (a : Nat) (v : Word) (hv : v ≠ 0) (ha : ∀ c ∈ m, c.1 ≠ a)
    (h : Memory.wf m = true) : Memory.wf (memInsert m a v) = true := by
  induction m with
  | nil => simpa [memInsert, Memory.wf] using hv
  | cons c m ih =>
    obtain ⟨b, w⟩ := c
    obtain ⟨hw, hlt, hm⟩ := (wf_cons b w m).mp h
    have hb : b ≠ a := ha (b, w) List.mem_cons_self
    by_cases hab : a < b
    · simp only [memInsert, hab, if_true]
      refine (wf_cons _ _ _).mpr ⟨hv, ?_, h⟩
      intro c hc
      rcases List.mem_cons.mp hc with rfl | hc
      · exact hab
      · exact lt_trans hab (hlt c hc)
    · simp only [memInsert, hab, if_false]
      refine (wf_cons _ _ _).mpr ⟨hw, ?_, ih (fun c hc => ha c (List.mem_cons_of_mem _ hc)) hm⟩
      intro c hc
      rcases mem_memInsert hc with rfl | hc
      · show b < a
        omega
      · exact hlt c hc

/-- Every write keeps the canonical form. -/
theorem memSet_wf (m : Memory) (a : Nat) (v : Word) (h : Memory.wf m = true) :
    Memory.wf (memSet m a v) = true := by
  unfold memSet
  split
  · exact memErase_wf m a h
  · next hv => exact memInsert_wf _ a v hv (memErase_absent m a) (memErase_wf m a h)

/-- The memory after reset is in canonical form. -/
theorem reset_mem_wf : Memory.wf State.reset.mem = true := rfl

end Sys2Proof.Machine
end

