-- ==== Sys2Proof/Laws/State.lean ====
section
/-! SUPPORT. What each update of the state leaves in each field, one lemma per field per update, and
the register bank's read-after-write lemmas. -/

namespace Sys2Proof.Machine

/-! ### `setReg` -/

@[simp] theorem setReg_regs (s : State) (i : Reg) (v : Half) : (s.setReg i v).regs = regSet s.regs i v := rfl
@[simp] theorem setReg_flags (s : State) (i : Reg) (v : Half) : (s.setReg i v).flags = s.flags := rfl
@[simp] theorem setReg_pc (s : State) (i : Reg) (v : Half) : (s.setReg i v).pc = s.pc := rfl
@[simp] theorem setReg_sp (s : State) (i : Reg) (v : Half) : (s.setReg i v).sp = s.sp := rfl
@[simp] theorem setReg_mem (s : State) (i : Reg) (v : Half) : (s.setReg i v).mem = s.mem := rfl
@[simp] theorem setReg_run (s : State) (i : Reg) (v : Half) : (s.setReg i v).run = s.run := rfl
@[simp] theorem setReg_mode (s : State) (i : Reg) (v : Half) : (s.setReg i v).mode = s.mode := rfl
@[simp] theorem setReg_events (s : State) (i : Reg) (v : Half) : (s.setReg i v).events = s.events := rfl
@[simp] theorem setReg_cfg (s : State) (i : Reg) (v : Half) : (s.setReg i v).cfg = s.cfg := rfl

/-! ### `setFlags` -/

@[simp] theorem setFlags_regs (s : State) (f : Flags) : (s.setFlags f).regs = s.regs := rfl
@[simp] theorem setFlags_flags (s : State) (f : Flags) : (s.setFlags f).flags = f := rfl
@[simp] theorem setFlags_pc (s : State) (f : Flags) : (s.setFlags f).pc = s.pc := rfl
@[simp] theorem setFlags_sp (s : State) (f : Flags) : (s.setFlags f).sp = s.sp := rfl
@[simp] theorem setFlags_mem (s : State) (f : Flags) : (s.setFlags f).mem = s.mem := rfl
@[simp] theorem setFlags_run (s : State) (f : Flags) : (s.setFlags f).run = s.run := rfl
@[simp] theorem setFlags_mode (s : State) (f : Flags) : (s.setFlags f).mode = s.mode := rfl
@[simp] theorem setFlags_events (s : State) (f : Flags) : (s.setFlags f).events = s.events := rfl
@[simp] theorem setFlags_cfg (s : State) (f : Flags) : (s.setFlags f).cfg = s.cfg := rfl
@[simp] theorem setFlags_reg (s : State) (f : Flags) (q : Reg) : (s.setFlags f).reg q = s.reg q := rfl

/-! ### `setPc` -/

@[simp] theorem setPc_regs (s : State) (a : Nat) : (s.setPc a).regs = s.regs := rfl
@[simp] theorem setPc_flags (s : State) (a : Nat) : (s.setPc a).flags = s.flags := rfl
@[simp] theorem setPc_pc (s : State) (a : Nat) : (s.setPc a).pc = a := rfl
@[simp] theorem setPc_sp (s : State) (a : Nat) : (s.setPc a).sp = s.sp := rfl
@[simp] theorem setPc_mem (s : State) (a : Nat) : (s.setPc a).mem = s.mem := rfl
@[simp] theorem setPc_run (s : State) (a : Nat) : (s.setPc a).run = s.run := rfl
@[simp] theorem setPc_mode (s : State) (a : Nat) : (s.setPc a).mode = s.mode := rfl
@[simp] theorem setPc_events (s : State) (a : Nat) : (s.setPc a).events = s.events := rfl
@[simp] theorem setPc_cfg (s : State) (a : Nat) : (s.setPc a).cfg = s.cfg := rfl
@[simp] theorem setPc_reg (s : State) (a : Nat) (q : Reg) : (s.setPc a).reg q = s.reg q := rfl

/-! ### `setSp` -/

@[simp] theorem setSp_regs (s : State) (a : Nat) : (s.setSp a).regs = s.regs := rfl
@[simp] theorem setSp_flags (s : State) (a : Nat) : (s.setSp a).flags = s.flags := rfl
@[simp] theorem setSp_pc (s : State) (a : Nat) : (s.setSp a).pc = s.pc := rfl
@[simp] theorem setSp_sp (s : State) (a : Nat) : (s.setSp a).sp = a := rfl
@[simp] theorem setSp_mem (s : State) (a : Nat) : (s.setSp a).mem = s.mem := rfl
@[simp] theorem setSp_run (s : State) (a : Nat) : (s.setSp a).run = s.run := rfl
@[simp] theorem setSp_mode (s : State) (a : Nat) : (s.setSp a).mode = s.mode := rfl
@[simp] theorem setSp_events (s : State) (a : Nat) : (s.setSp a).events = s.events := rfl
@[simp] theorem setSp_cfg (s : State) (a : Nat) : (s.setSp a).cfg = s.cfg := rfl
@[simp] theorem setSp_reg (s : State) (a : Nat) (q : Reg) : (s.setSp a).reg q = s.reg q := rfl

/-! ### `setMem` -/

@[simp] theorem setMem_regs (s : State) (m : Memory) : (s.setMem m).regs = s.regs := rfl
@[simp] theorem setMem_flags (s : State) (m : Memory) : (s.setMem m).flags = s.flags := rfl
@[simp] theorem setMem_pc (s : State) (m : Memory) : (s.setMem m).pc = s.pc := rfl
@[simp] theorem setMem_sp (s : State) (m : Memory) : (s.setMem m).sp = s.sp := rfl
@[simp] theorem setMem_mem (s : State) (m : Memory) : (s.setMem m).mem = m := rfl
@[simp] theorem setMem_run (s : State) (m : Memory) : (s.setMem m).run = s.run := rfl
@[simp] theorem setMem_mode (s : State) (m : Memory) : (s.setMem m).mode = s.mode := rfl
@[simp] theorem setMem_events (s : State) (m : Memory) : (s.setMem m).events = s.events := rfl
@[simp] theorem setMem_cfg (s : State) (m : Memory) : (s.setMem m).cfg = s.cfg := rfl
@[simp] theorem setMem_reg (s : State) (m : Memory) (q : Reg) : (s.setMem m).reg q = s.reg q := rfl

/-! ### `setRun` -/

@[simp] theorem setRun_regs (s : State) (r : RunState) : (s.setRun r).regs = s.regs := rfl
@[simp] theorem setRun_flags (s : State) (r : RunState) : (s.setRun r).flags = s.flags := rfl
@[simp] theorem setRun_pc (s : State) (r : RunState) : (s.setRun r).pc = s.pc := rfl
@[simp] theorem setRun_sp (s : State) (r : RunState) : (s.setRun r).sp = s.sp := rfl
@[simp] theorem setRun_mem (s : State) (r : RunState) : (s.setRun r).mem = s.mem := rfl
@[simp] theorem setRun_run (s : State) (r : RunState) : (s.setRun r).run = r := rfl
@[simp] theorem setRun_mode (s : State) (r : RunState) : (s.setRun r).mode = s.mode := rfl
@[simp] theorem setRun_events (s : State) (r : RunState) : (s.setRun r).events = s.events := rfl
@[simp] theorem setRun_cfg (s : State) (r : RunState) : (s.setRun r).cfg = s.cfg := rfl
@[simp] theorem setRun_reg (s : State) (r : RunState) (q : Reg) : (s.setRun r).reg q = s.reg q := rfl

/-! ### `setMode` -/

@[simp] theorem setMode_regs (s : State) (m : RunMode) : (s.setMode m).regs = s.regs := rfl
@[simp] theorem setMode_flags (s : State) (m : RunMode) : (s.setMode m).flags = s.flags := rfl
@[simp] theorem setMode_pc (s : State) (m : RunMode) : (s.setMode m).pc = s.pc := rfl
@[simp] theorem setMode_sp (s : State) (m : RunMode) : (s.setMode m).sp = s.sp := rfl
@[simp] theorem setMode_mem (s : State) (m : RunMode) : (s.setMode m).mem = s.mem := rfl
@[simp] theorem setMode_run (s : State) (m : RunMode) : (s.setMode m).run = s.run := rfl
@[simp] theorem setMode_mode (s : State) (m : RunMode) : (s.setMode m).mode = m := rfl
@[simp] theorem setMode_events (s : State) (m : RunMode) : (s.setMode m).events = s.events := rfl
@[simp] theorem setMode_cfg (s : State) (m : RunMode) : (s.setMode m).cfg = s.cfg := rfl
@[simp] theorem setMode_reg (s : State) (m : RunMode) (q : Reg) : (s.setMode m).reg q = s.reg q := rfl

/-! ### `emit` -/

@[simp] theorem emit_regs (s : State) (ev : Event) : (s.emit ev).regs = s.regs := rfl
@[simp] theorem emit_flags (s : State) (ev : Event) : (s.emit ev).flags = s.flags := rfl
@[simp] theorem emit_pc (s : State) (ev : Event) : (s.emit ev).pc = s.pc := rfl
@[simp] theorem emit_sp (s : State) (ev : Event) : (s.emit ev).sp = s.sp := rfl
@[simp] theorem emit_mem (s : State) (ev : Event) : (s.emit ev).mem = s.mem := rfl
@[simp] theorem emit_run (s : State) (ev : Event) : (s.emit ev).run = s.run := rfl
@[simp] theorem emit_mode (s : State) (ev : Event) : (s.emit ev).mode = s.mode := rfl
@[simp] theorem emit_events (s : State) (ev : Event) : (s.emit ev).events = s.events ++ [ev] := rfl
@[simp] theorem emit_cfg (s : State) (ev : Event) : (s.emit ev).cfg = s.cfg := rfl
@[simp] theorem emit_reg (s : State) (ev : Event) (q : Reg) : (s.emit ev).reg q = s.reg q := rfl

/-! ### Registers (10_state.md R20) -/

@[simp] theorem regGet_regSet_same (b : Regs) (i : Reg) (v : Half) : regGet (regSet b i v) i = v := by
  cases i <;> rfl

theorem regGet_regSet_other (b : Regs) {i q : Reg} (v : Half) (h : q ≠ i) :
    regGet (regSet b i v) q = regGet b q := by
  cases i <;> cases q <;> first | rfl | exact absurd rfl h

@[simp] theorem setReg_reg_same (s : State) (i : Reg) (v : Half) : (s.setReg i v).reg i = v :=
  regGet_regSet_same s.regs i v

theorem setReg_reg_other (s : State) {i q : Reg} (v : Half) (h : q ≠ i) :
    (s.setReg i v).reg q = s.reg q :=
  regGet_regSet_other s.regs v h

end Sys2Proof.Machine
end

