-- ==== Sys2Proof/Laws/Ops.lean ====
section
/-! SUPPORT. For each shared operation, one lemma that says everything it can answer. -/

namespace Sys2Proof.Machine

/-! ### Sequencing -/

@[simp] theorem attempt_ok {α : Type} (a : α) (k : α → Result) : attempt (.ok a) k = k a := rfl

@[simp] theorem attempt_error {α : Type} (e : Fault) (k : α → Result) :
    attempt (.error e) k = .fault e := rfl

theorem attempt_next {α : Type} {x : Except Fault α} {k : α → Result} {t : State}
    (h : attempt x k = .next t) : ∃ a, x = .ok a ∧ k a = .next t := by
  cases x with
  | ok a => exact ⟨a, rfl, h⟩
  | error e => exact nomatch h

theorem attempt_fault {α : Type} {x : Except Fault α} {k : α → Result} {e : Fault}
    (h : attempt x k = .fault e) : x = .error e ∨ ∃ a, x = .ok a ∧ k a = .fault e := by
  cases x with
  | ok a => exact .inr ⟨a, rfl, h⟩
  | error d =>
    rw [attempt_error] at h
    injection h with h
    exact .inl (by rw [h])

/-! ### The end of a Step -/

theorem commit_of_lt {a : Nat} {s : State} (h : a < s.cfg.memSize) : commit a s = .next (s.setPc a) :=
  if_neg (Nat.not_le.mpr h)

theorem commit_of_le {a : Nat} {s : State} (h : s.cfg.memSize ≤ a) :
    commit a s = .fault (.addressOutOfRange a) :=
  if_pos h

theorem commit_next {a : Nat} {s t : State} (h : commit a s = .next t) :
    a < s.cfg.memSize ∧ t = s.setPc a := by
  by_cases ha : s.cfg.memSize ≤ a
  · rw [commit_of_le ha] at h
    exact nomatch h
  · have ha := Nat.lt_of_not_le ha
    rw [commit_of_lt ha] at h
    injection h with h
    exact ⟨ha, h.symm⟩

theorem commit_fault {a : Nat} {s : State} {e : Fault} (h : commit a s = .fault e) :
    s.cfg.memSize ≤ a ∧ e = .addressOutOfRange a := by
  by_cases ha : s.cfg.memSize ≤ a
  · rw [commit_of_le ha] at h
    injection h with h
    exact ⟨ha, h.symm⟩
  · rw [commit_of_lt (Nat.lt_of_not_le ha)] at h
    exact nomatch h

theorem advance_of_lt {s : State} (h : s.pc + 1 < s.cfg.memSize) :
    advance s = .next (s.setPc (s.pc + 1)) :=
  commit_of_lt h

theorem advance_of_le {s : State} (h : s.cfg.memSize ≤ s.pc + 1) :
    advance s = .fault (.addressOutOfRange (s.pc + 1)) :=
  commit_of_le h

theorem advance_next {s t : State} (h : advance s = .next t) :
    s.pc + 1 < s.cfg.memSize ∧ t = s.setPc (s.pc + 1) :=
  commit_next h

theorem advance_fault {s : State} {e : Fault} (h : advance s = .fault e) :
    s.cfg.memSize ≤ s.pc + 1 ∧ e = .addressOutOfRange (s.pc + 1) :=
  commit_fault h

/-! ### Memory accesses -/

theorem memRead_of_lt {s : State} {a : Nat} (h : a < s.cfg.memSize) :
    s.memRead a = .ok (memGet s.mem a) :=
  if_neg (Nat.not_le.mpr h)

theorem memRead_of_le {s : State} {a : Nat} (h : s.cfg.memSize ≤ a) :
    s.memRead a = .error (.addressOutOfRange a) :=
  if_pos h

theorem memRead_ok {s : State} {a : Nat} {w : Word} (h : s.memRead a = .ok w) :
    a < s.cfg.memSize ∧ w = memGet s.mem a := by
  unfold State.memRead at h
  split at h
  · exact nomatch h
  · next ha =>
    injection h with h
    exact ⟨Nat.lt_of_not_le ha, h.symm⟩

theorem memRead_error {s : State} {a : Nat} {e : Fault} (h : s.memRead a = .error e) :
    s.cfg.memSize ≤ a ∧ e = .addressOutOfRange a := by
  unfold State.memRead at h
  split at h
  · next ha =>
    injection h with h
    exact ⟨ha, h.symm⟩
  · exact nomatch h

theorem memWrite_of_lt {s : State} {a : Nat} (v : Word) (h1 : a < s.cfg.memSize)
    (h2 : a < s.cfg.stackBase) : s.memWrite a v = .ok (s.setMem (memSet s.mem a v)) := by
  simp [State.memWrite, Nat.not_le.mpr h1, Nat.not_le.mpr h2]

/-- An ordinary write goes to ordinary memory and changes only the addressed word. -/
theorem memWrite_ok {s t : State} {a : Nat} {v : Word} (h : s.memWrite a v = .ok t) :
    a < s.cfg.memSize ∧ a < s.cfg.stackBase ∧ t = s.setMem (memSet s.mem a v) := by
  unfold State.memWrite at h
  split at h
  · exact nomatch h
  · next h1 =>
    split at h
    · exact nomatch h
    · next h2 =>
      injection h with h
      exact ⟨Nat.lt_of_not_le h1, Nat.lt_of_not_le h2, h.symm⟩

theorem memWrite_error {s : State} {a : Nat} {v : Word} {e : Fault} (h : s.memWrite a v = .error e) :
    (s.cfg.memSize ≤ a ∧ e = .addressOutOfRange a) ∨
      (a < s.cfg.memSize ∧ s.cfg.stackBase ≤ a ∧ e = .stackRegionViolation a) := by
  unfold State.memWrite at h
  split at h
  · next h1 =>
    injection h with h
    exact .inl ⟨h1, h.symm⟩
  · next h1 =>
    split at h
    · next h2 =>
      injection h with h
      exact .inr ⟨Nat.lt_of_not_le h1, h2, h.symm⟩
    · exact nomatch h

theorem push_of_ne {s : State} (v : Word) (h : s.sp ≠ s.cfg.memSize) :
    s.push v = .ok ((s.setMem (memSet s.mem s.sp v)).setSp (s.sp + 1)) :=
  if_neg h

theorem pop_of_ne {s : State} (h : s.sp ≠ s.cfg.stackBase) :
    s.pop = .ok (memGet s.mem (s.sp - 1),
      (s.setMem (memSet s.mem (s.sp - 1) 0)).setSp (s.sp - 1)) :=
  if_neg h

theorem push_ok {s t : State} {v : Word} (h : s.push v = .ok t) :
    s.sp ≠ s.cfg.memSize ∧ t = (s.setMem (memSet s.mem s.sp v)).setSp (s.sp + 1) := by
  unfold State.push at h
  split at h
  · exact nomatch h
  · next hs =>
    injection h with h
    exact ⟨hs, h.symm⟩

theorem push_error {s : State} {v : Word} {e : Fault} (h : s.push v = .error e) :
    s.sp = s.cfg.memSize ∧ e = .stackFull := by
  unfold State.push at h
  split at h
  · next hs =>
    injection h with h
    exact ⟨hs, h.symm⟩
  · exact nomatch h

theorem pop_ok {s t : State} {w : Word} (h : s.pop = .ok (w, t)) :
    s.sp ≠ s.cfg.stackBase ∧ w = memGet s.mem (s.sp - 1) ∧
      t = (s.setMem (memSet s.mem (s.sp - 1) 0)).setSp (s.sp - 1) := by
  unfold State.pop at h
  split at h
  · exact nomatch h
  · next hs =>
    injection h with h
    injection h with h1 h2
    exact ⟨hs, h1.symm, h2.symm⟩

theorem pop_error {s : State} {e : Fault} (h : s.pop = .error e) :
    s.sp = s.cfg.stackBase ∧ e = .stackEmpty := by
  unfold State.pop at h
  split at h
  · next hs =>
    injection h with h
    exact ⟨hs, h.symm⟩
  · exact nomatch h

end Sys2Proof.Machine
end

