-- ==== Sys2Proof/Laws/PerInstr.lean ====
section
/-! SUPPORT. Statements made for every instruction, one lemma per constructor. The family
`OpcodeField` says that the word of an instruction carries the opcode of its row (30_encoding.md R81,
R95), whatever its operands are. -/

namespace Sys2Proof.Laws

/-- The opcode of an instruction's row (30_encoding.md R95). -/
def opcodeOf : Instr → Opcode
  | .nop _ _ => .nop
  | .load _ _ => .load
  | .store _ _ => .store
  | .move _ _ => .move
  | .add _ _ _ => .add
  | .sub _ _ _ => .sub
  | .mul _ _ _ => .mul
  | .div _ _ _ => .div
  | .and _ _ _ => .and
  | .or _ _ _ => .or
  | .nor _ _ _ => .nor
  | .not _ => .not
  | .shl _ _ => .shl
  | .shr _ _ => .shr
  | .rol _ _ => .rol
  | .ror _ _ => .ror
  | .jump _ => .jump
  | .beq _ => .beq
  | .bne _ _ _ => .bne
  | .blt _ _ _ => .blt
  | .jle _ _ _ => .jle
  | .push _ => .push
  | .pop _ => .pop
  | .call _ => .call
  | .ret => .ret
  | .inp _ => .inp
  | .out _ => .out
  | .cmp _ _ => .cmp
  | .clr _ => .clr
  | .loadr _ _ => .loadr
  | .storer _ _ => .storer
  | .halt => .halt

/-- The five top bits of a packed word are its opcode's number. -/
theorem pack_opcode (op : Opcode) (area : Nat) : slice (pack op area) 31 27 = op.number := by
  have h : op.number < 32 := by cases op <;> decide
  have ha : area % 2 ^ 27 < 2 ^ 27 := Nat.mod_lt _ (by decide)
  simp only [slice, pack, BitVec.toNat_ofNat]
  omega

/-- The word's opcode field holds the number of the instruction's opcode. -/
def OpcodeField.Statement (i : Instr) : Prop := slice (encode i) 31 27 = (opcodeOf i).number

theorem OpcodeField.nop (tag : BitVec 6) (pay : BitVec 21) : OpcodeField.Statement (.nop tag pay) := pack_opcode _ _
theorem OpcodeField.load (ra : Reg) (a25 : Nat) : OpcodeField.Statement (.load ra a25) := pack_opcode _ _
theorem OpcodeField.store (ra : Reg) (a25 : Nat) : OpcodeField.Statement (.store ra a25) := pack_opcode _ _
theorem OpcodeField.move (ra rb : Reg) : OpcodeField.Statement (.move ra rb) := pack_opcode _ _
theorem OpcodeField.add (ra rb rc : Reg) : OpcodeField.Statement (.add ra rb rc) := pack_opcode _ _
theorem OpcodeField.sub (ra rb rc : Reg) : OpcodeField.Statement (.sub ra rb rc) := pack_opcode _ _
theorem OpcodeField.mul (ra rb rc : Reg) : OpcodeField.Statement (.mul ra rb rc) := pack_opcode _ _
theorem OpcodeField.div (ra rb rc : Reg) : OpcodeField.Statement (.div ra rb rc) := pack_opcode _ _
theorem OpcodeField.and (ra rb rc : Reg) : OpcodeField.Statement (.and ra rb rc) := pack_opcode _ _
theorem OpcodeField.or (ra rb rc : Reg) : OpcodeField.Statement (.or ra rb rc) := pack_opcode _ _
theorem OpcodeField.nor (ra rb rc : Reg) : OpcodeField.Statement (.nor ra rb rc) := pack_opcode _ _
theorem OpcodeField.not (ra : Reg) : OpcodeField.Statement (.not ra) := pack_opcode _ _
theorem OpcodeField.shl (ra rb : Reg) : OpcodeField.Statement (.shl ra rb) := pack_opcode _ _
theorem OpcodeField.shr (ra rb : Reg) : OpcodeField.Statement (.shr ra rb) := pack_opcode _ _
theorem OpcodeField.rol (ra rb : Reg) : OpcodeField.Statement (.rol ra rb) := pack_opcode _ _
theorem OpcodeField.ror (ra rb : Reg) : OpcodeField.Statement (.ror ra rb) := pack_opcode _ _
theorem OpcodeField.jump (a27 : Nat) : OpcodeField.Statement (.jump a27) := pack_opcode _ _
theorem OpcodeField.beq (a27 : Nat) : OpcodeField.Statement (.beq a27) := pack_opcode _ _
theorem OpcodeField.bne (ra rb : Reg) (a23 : Nat) : OpcodeField.Statement (.bne ra rb a23) := pack_opcode _ _
theorem OpcodeField.blt (ra rb : Reg) (a23 : Nat) : OpcodeField.Statement (.blt ra rb a23) := pack_opcode _ _
theorem OpcodeField.jle (ra rb : Reg) (a23 : Nat) : OpcodeField.Statement (.jle ra rb a23) := pack_opcode _ _
theorem OpcodeField.push (ra : Reg) : OpcodeField.Statement (.push ra) := pack_opcode _ _
theorem OpcodeField.pop (ra : Reg) : OpcodeField.Statement (.pop ra) := pack_opcode _ _
theorem OpcodeField.call (a27 : Nat) : OpcodeField.Statement (.call a27) := pack_opcode _ _
theorem OpcodeField.ret : OpcodeField.Statement .ret := pack_opcode _ _
theorem OpcodeField.inp (ra : Reg) : OpcodeField.Statement (.inp ra) := pack_opcode _ _
theorem OpcodeField.out (ra : Reg) : OpcodeField.Statement (.out ra) := pack_opcode _ _
theorem OpcodeField.cmp (ra rb : Reg) : OpcodeField.Statement (.cmp ra rb) := pack_opcode _ _
theorem OpcodeField.clr (ra : Reg) : OpcodeField.Statement (.clr ra) := pack_opcode _ _
theorem OpcodeField.loadr (ra rb : Reg) : OpcodeField.Statement (.loadr ra rb) := pack_opcode _ _
theorem OpcodeField.storer (ra : Reg) (a25 : Nat) : OpcodeField.Statement (.storer ra a25) := pack_opcode _ _
theorem OpcodeField.halt : OpcodeField.Statement .halt := pack_opcode _ _

end Sys2Proof.Laws
end

