-- ==== Sys2Proof/Tests/Slice0.lean ====
section
/-! SUPPORT. The model's own tests: the smoke test of WellFormed, one decoded word for every
constructor, at most two Steps for each instruction, and for every statement with hypotheses a state
and operands that meet them. The expected values are those of 95_test_vectors.md (its row is named at
each test) or, where none is named, worked from the encoding tables of 30_encoding.md R86 and R95. -/

namespace Sys2Proof.Tests
open Sys2Proof.Machine

/-! ### WellFormed: each check refuses an address one past its field -/

theorem test_wellFormed_load : Instr.wellFormed (.load .r1 (2 ^ 25)) = false ∧
    Instr.wellFormed (.load .r1 (2 ^ 25 - 1)) = true := by decide
theorem test_wellFormed_store : Instr.wellFormed (.store .r1 (2 ^ 25)) = false ∧
    Instr.wellFormed (.store .r1 (2 ^ 25 - 1)) = true := by decide
theorem test_wellFormed_storer : Instr.wellFormed (.storer .r1 (2 ^ 25)) = false ∧
    Instr.wellFormed (.storer .r1 (2 ^ 25 - 1)) = true := by decide
theorem test_wellFormed_jump : Instr.wellFormed (.jump (2 ^ 27)) = false ∧
    Instr.wellFormed (.jump (2 ^ 27 - 1)) = true := by decide
theorem test_wellFormed_beq : Instr.wellFormed (.beq (2 ^ 27)) = false ∧
    Instr.wellFormed (.beq (2 ^ 27 - 1)) = true := by decide
theorem test_wellFormed_call : Instr.wellFormed (.call (2 ^ 27)) = false ∧
    Instr.wellFormed (.call (2 ^ 27 - 1)) = true := by decide
theorem test_wellFormed_bne : Instr.wellFormed (.bne .r1 .r2 (2 ^ 23)) = false ∧
    Instr.wellFormed (.bne .r1 .r2 (2 ^ 23 - 1)) = true := by decide
theorem test_wellFormed_blt : Instr.wellFormed (.blt .r1 .r2 (2 ^ 23)) = false ∧
    Instr.wellFormed (.blt .r1 .r2 (2 ^ 23 - 1)) = true := by decide
theorem test_wellFormed_jle : Instr.wellFormed (.jle .r1 .r2 (2 ^ 23)) = false ∧
    Instr.wellFormed (.jle .r1 .r2 (2 ^ 23 - 1)) = true := by decide

/-! ### Decoding: the spec's word for each constructor -/

/-- V-DEC-5. -/
theorem test_decode_nop : decode 0x007FFFFB = .nop 3 0x1FFFFB := by decide
/-- V-DEC-3. -/
theorem test_decode_load : decode 0x0A00003F = .load .r1 0x3F := by decide
/-- V-DM-14. -/
theorem test_decode_store : decode 0x14000007 = .store .r2 7 := by decide
/-- V-DEC-12. -/
theorem test_decode_move : decode 0x18800000 = .move .r0 .r1 := by decide
/-- V-DEC-2. -/
theorem test_decode_add : decode 0x23600000 = .add .r1 .r2 .r3 := by decide
/-- V-SUB-1. -/
theorem test_decode_sub : decode 0x28C00000 = .sub .r0 .r1 .r2 := by decide
/-- V-MUL-1. -/
theorem test_decode_mul : decode 0x30C00000 = .mul .r0 .r1 .r2 := by decide
/-- V-DIV-1. -/
theorem test_decode_div : decode 0x38C00000 = .div .r0 .r1 .r2 := by decide
/-- program P4. -/
theorem test_decode_and : decode 0x40E00000 = .and .r0 .r1 .r3 := by decide
/-- V-LOG-2. -/
theorem test_decode_or : decode 0x48C00000 = .or .r0 .r1 .r2 := by decide
/-- V-LOG-4. -/
theorem test_decode_nor : decode 0x50600000 = .nor .r0 .r0 .r3 := by decide
/-- V-LOG-6. -/
theorem test_decode_not : decode 0x5E000000 = .not .r3 := by decide
/-- V-SH-13. -/
theorem test_decode_shl : decode 0x65000000 = .shl .r2 .r2 := by decide
/-- V-SH-5. -/
theorem test_decode_shr : decode 0x68800000 = .shr .r0 .r1 := by decide
/-- V-SH-8. -/
theorem test_decode_rol : decode 0x70800000 = .rol .r0 .r1 := by decide
/-- V-DEC-7, every unused bit set. -/
theorem test_decode_ror : decode 0x7FFFFFFF = .ror .r3 .r3 := by decide
/-- V-CF-2. -/
theorem test_decode_jump : decode 0x800003E8 = .jump 1000 := by decide
/-- V-CF-6. -/
theorem test_decode_beq : decode 0x88001388 = .beq 5000 := by decide
/-- V-DEC-4. -/
theorem test_decode_bne : decode 0x93000007 = .bne .r1 .r2 7 := by decide
/-- V-CF-11. -/
theorem test_decode_blt : decode 0x98800014 = .blt .r0 .r1 20 := by decide
/-- V-CF-15. -/
theorem test_decode_jle : decode 0xA0800002 = .jle .r0 .r1 2 := by decide
/-- E7. -/
theorem test_decode_push : decode 0xAC000000 = .push .r2 := by decide
/-- V-IO-8. -/
theorem test_decode_pop : decode 0xB6000000 = .pop .r3 := by decide
/-- V-DEC-10. -/
theorem test_decode_call : decode 0xB800000A = .call 10 := by decide
/-- V-CF-21. -/
theorem test_decode_ret : decode 0xC0000000 = .ret := by decide
/-- V-IO-1. -/
theorem test_decode_in : decode 0xCC000000 = .inp .r2 := by decide
/-- E7. -/
theorem test_decode_out : decode 0xD6000000 = .out .r3 := by decide
/-- V-CM-1. -/
theorem test_decode_cmp : decode 0xD8800000 = .cmp .r0 .r1 := by decide
/-- V-CM-8. -/
theorem test_decode_clr : decode 0xE2000000 = .clr .r1 := by decide
/-- V-DM-23. -/
theorem test_decode_loadr : decode 0xED800000 = .loadr .r2 .r3 := by decide
/-- V-DEC-11. -/
theorem test_decode_storer : decode 0xF2000028 = .storer .r1 40 := by decide
/-- V-DEC-6, every unused bit set. -/
theorem test_decode_halt : decode 0xFFFFFFFF = .halt := by decide

/-- The highest value of every operand field of RRA23, written out from R86. -/
theorem test_encode_jle_all_ones : encode (.jle .r3 .r3 (2 ^ 23 - 1)) = 0xA7FFFFFF := by decide
/-- The encoder writes zeros in the unused bits (R87). -/
theorem test_encode_not_clears_unused : encode (decode 0x5FFFFFFF) = 0x5E000000 := by decide

/-! ### One Step -/

/-- A Running state with the default parameters, no flag set and the memory given. -/
def started (pc sp : Nat) (regs : Regs) (mem : Memory) : State :=
  { State.reset with pc := pc, sp := sp, regs := regs, mem := mem }

/-- Part of the next state; none where the Step has none. -/
def look {α : Type} (f : State → α) : Result → Option α
  | .next t => some (f t)
  | _ => none

/-- The error of a Step that faults. -/
def faultOf : Result → Option Fault
  | .fault e => some e
  | _ => none

/-- The Step of the instruction word `w` at the pc of `s`. -/
def go (w : Nat) (s : State) : Result := step (s.withFetchWord 32 w)

/-- V-ADD-4. -/
theorem test_add_carry :
    look (fun t => (t.reg .r2, t.flags)) (go 0x20C00000 (started 0 900 ⟨0x8000, 0x8000, 0, 0⟩ [])) =
      some (0, ⟨true, true, false, true⟩) := by decide
/-- V-ADD-6. -/
theorem test_add_overflow_in_place :
    look (fun t => (t.reg .r1, t.flags)) (go 0x22A00000 (started 0 900 ⟨0, 0x4000, 0, 0⟩ [])) =
      some (0x8000, ⟨false, false, false, true⟩) := by decide
/-- V-SUB-3. -/
theorem test_sub_exact_sign :
    look (fun t => (t.reg .r2, t.flags)) (go 0x28C00000 (started 0 900 ⟨0x8000, 1, 0, 0⟩ [])) =
      some (0x7FFF, ⟨false, false, true, false⟩) := by decide
/-- V-SUB-2. -/
theorem test_sub_keeps_carry :
    look (fun t => (t.reg .r2, t.flags)) (go 0x28C00000 ((started 0 900 ⟨7, 7, 5, 0⟩ []).setFlags ⟨true, false, true, true⟩)) =
      some (0, ⟨true, true, false, true⟩) := by decide
/-- V-MUL-5. -/
theorem test_mul_at_threshold :
    look (fun t => (t.reg .r2, t.flags)) (go 0x30C00000 (started 0 900 ⟨0x0800, 0x0400, 0, 0⟩ [])) =
      some (0, ⟨true, true, false, true⟩) := by decide
/-- V-MUL-6. -/
theorem test_mul_below_threshold :
    look (fun t => (t.reg .r2, t.flags)) (go 0x30C00000 (started 0 900 ⟨0x0800, 0x03FF, 0, 0⟩ [])) =
      some (0xF800, ⟨false, false, false, false⟩) := by decide
/-- V-DIV-2. -/
theorem test_div_truncates :
    look (fun t => (t.reg .r2, t.flags)) (go 0x38C00000 (started 0 900 ⟨0xFFF9, 2, 0, 0⟩ [])) =
      some (0xFFFD, ⟨false, false, false, false⟩) := by decide
/-- V-DIV-7. -/
theorem test_div_by_zero :
    faultOf (go 0x38C00000 ((started 0 900 ⟨9, 0, 4, 0⟩ []).setFlags ⟨true, false, true, true⟩)) = some .divisionByZero := by decide
/-- V-LOG-1. -/
theorem test_and :
    look (fun t => (t.reg .r2, t.flags)) (go 0x40C00000 ((started 0 900 ⟨255, 0x0F0F, 0, 0⟩ []).setFlags ⟨true, true, true, true⟩)) =
      some (15, ⟨true, true, true, true⟩) := by decide
/-- V-LOG-2. -/
theorem test_or :
    look (fun t => (t.reg .r2, t.flags)) (go 0x48C00000 (started 0 900 ⟨255, 0x0F0F, 0, 0⟩ [])) =
      some (0x0FFF, ⟨false, false, false, false⟩) := by decide
/-- V-LOG-3. -/
theorem test_nor :
    look (fun t => (t.reg .r2, t.flags)) (go 0x50C00000 (started 0 900 ⟨255, 0x0F0F, 0, 0⟩ [])) =
      some (0xF000, ⟨false, false, false, false⟩) := by decide
/-- V-LOG-6. -/
theorem test_not :
    look (fun t => (t.reg .r3, t.flags)) (go 0x5E000000 (started 0 900 ⟨0, 0, 0, 5⟩ [])) =
      some (0xFFFA, ⟨false, false, false, false⟩) := by decide
/-- V-SH-4. -/
theorem test_shl_amount_minus_one :
    look (fun t => (t.reg .r0, t.flags)) (go 0x60800000 (started 0 900 ⟨1, 0xFFFF, 0, 0⟩ [])) =
      some (0x8000, ⟨false, false, false, false⟩) := by decide
/-- V-SH-13. -/
theorem test_shl_by_itself :
    look (fun t => (t.reg .r2, t.flags)) (go 0x65000000 (started 0 900 ⟨0, 0, 3, 0⟩ [])) =
      some (24, ⟨false, false, false, false⟩) := by decide
/-- V-SH-5. -/
theorem test_shr_logical :
    look (fun t => (t.reg .r0, t.flags)) (go 0x68800000 (started 0 900 ⟨0xFFF0, 4, 0, 0⟩ [])) =
      some (0x0FFF, ⟨false, false, false, false⟩) := by decide
/-- V-SH-7. -/
theorem test_shr_amount_17 :
    look (fun t => (t.reg .r0, t.flags)) (go 0x68800000 (started 0 900 ⟨0x1234, 17, 0, 0⟩ [])) =
      some (0x091A, ⟨false, false, false, false⟩) := by decide
/-- V-SH-10. -/
theorem test_rol :
    look (fun t => (t.reg .r0, t.flags)) (go 0x70800000 (started 0 900 ⟨0x1234, 4, 0, 0⟩ [])) =
      some (0x2341, ⟨false, false, false, false⟩) := by decide
/-- V-SH-9. -/
theorem test_rol_zero :
    look (fun t => (t.reg .r0, t.flags)) (go 0x70800000 (started 0 900 ⟨0x1234, 0, 0, 0⟩ [])) =
      some (0x1234, ⟨false, false, false, false⟩) := by decide
/-- V-SH-11. -/
theorem test_ror :
    look (fun t => (t.reg .r0, t.flags)) (go 0x78800000 (started 0 900 ⟨3, 1, 0, 0⟩ [])) =
      some (0x8001, ⟨false, false, false, false⟩) := by decide
/-- V-SH-12. -/
theorem test_ror_amount_20 :
    look (fun t => (t.reg .r0, t.flags)) (go 0x78800000 (started 0 900 ⟨0x1234, 20, 0, 0⟩ [])) =
      some (0x4123, ⟨false, false, false, false⟩) := by decide
/-- V-CF-3. -/
theorem test_jump_to_itself :
    look (fun t => t.pc) (go 0x80000004 (started 4 900 ⟨0, 0, 0, 0⟩ [])) =
      some 4 := by decide
/-- V-CF-2. -/
theorem test_jump_outside :
    faultOf (go 0x800003E8 (started 4 900 ⟨0, 0, 0, 0⟩ [])) = some (.addressOutOfRange 1000) := by decide
/-- V-CF-6. -/
theorem test_beq_untaken_target_outside :
    look (fun t => t.pc) (go 0x88001388 (started 3 900 ⟨0, 0, 0, 0⟩ [])) =
      some 4 := by decide
/-- V-CF-4. -/
theorem test_beq_taken :
    look (fun t => t.pc) (go 0x8800000C ((started 3 900 ⟨0, 0, 0, 0⟩ []).setFlags ⟨false, true, false, false⟩)) =
      some 12 := by decide
/-- V-CF-9. -/
theorem test_bne_untaken :
    look (fun t => (t.pc, t.flags)) (go 0x93000007 ((started 0 900 ⟨0, 5, 5, 0⟩ []).setFlags ⟨true, false, true, true⟩)) =
      some (1, ⟨true, true, false, true⟩) := by decide
/-- V-CF-10. -/
theorem test_bne_signed :
    look (fun t => (t.pc, t.flags)) (go 0x93000007 (started 0 900 ⟨0, 0x8000, 0x7FFF, 0⟩ [])) =
      some (7, ⟨false, false, true, false⟩) := by decide
/-- V-CF-13. -/
theorem test_blt_signed :
    look (fun t => (t.pc, t.flags)) (go 0x98800014 (started 5 900 ⟨0x8000, 0x7FFF, 0, 0⟩ [])) =
      some (20, ⟨false, false, true, false⟩) := by decide
/-- V-CF-14. -/
theorem test_blt_equal :
    look (fun t => (t.pc, t.flags)) (go 0x98800014 (started 5 900 ⟨4, 4, 0, 0⟩ [])) =
      some (6, ⟨false, true, false, false⟩) := by decide
/-- V-CF-15. -/
theorem test_jle_equal :
    look (fun t => (t.pc, t.flags)) (go 0xA0800002 (started 9 900 ⟨4, 4, 0, 0⟩ [])) =
      some (2, ⟨false, true, false, false⟩) := by decide
/-- V-CF-16. -/
theorem test_jle_greater :
    look (fun t => (t.pc, t.flags)) (go 0xA0800002 (started 9 900 ⟨5, 4, 0, 0⟩ [])) =
      some (10, ⟨false, false, false, false⟩) := by decide
/-- V-CF-18. -/
theorem test_call :
    look (fun t => (t.pc, memGet t.mem 900)) (go 0xB800000A (started 0 900 ⟨0, 0, 0, 0⟩ [])) =
      some (10, 1) := by decide
/-- V-PRI-5. -/
theorem test_call_full_before_target :
    faultOf (go 0xB80007D0 (started 0 1000 ⟨0, 0, 0, 0⟩ [])) = some .stackFull := by decide
/-- V-CF-21. -/
theorem test_ret :
    look (fun t => (t.pc, memGet t.mem 900)) (go 0xC0000000 (started 10 901 ⟨0, 0, 0, 0⟩ [(900, 1)])) =
      some (1, 0) := by decide
/-- V-CF-23. -/
theorem test_ret_whole_word :
    faultOf (go 0xC0000000 (started 10 901 ⟨0, 0, 0, 0⟩ [(900, 0xFFFFFFFF)])) = some (.addressOutOfRange 0xFFFFFFFF) := by decide
/-- V-DM-7, V-TV-5. -/
theorem test_load_literal :
    look (fun t => (t.reg .r2, t.flags)) (go 0x0C000006 (started 0 900 ⟨0, 0, 0, 0⟩ [(6, 0x00411170)])) =
      some (0x1170, ⟨false, false, false, false⟩) := by decide
/-- V-PRI-3. -/
theorem test_load_float :
    faultOf (go 0x08000006 (started 999 900 ⟨0, 0, 0, 0⟩ [(6, 0x0087F800)])) = some (.invalidEncoding 4 0x7F800) := by decide
/-- V-DM-15. -/
theorem test_store :
    look (fun t => (memGet t.mem 7, t.pc)) (go 0x14000007 (started 0 900 ⟨0, 0, 0xFFFF, 0⟩ [])) =
      some (0xFFFFFFFF, 1) := by decide
/-- V-PRI-1. -/
theorem test_store_region_before_next_pc :
    faultOf (go 0x100003B6 (started 999 900 ⟨0, 0, 0, 0⟩ [])) = some (.stackRegionViolation 950) := by decide
/-- V-DM-19. -/
theorem test_storer :
    look (fun t => (memGet t.mem 40, t.pc)) (go 0xF2000028 (started 0 900 ⟨0, 0xFFFE, 0, 0⟩ [])) =
      some (0xFFFFFFFE, 1) := by decide
/-- V-DM-20. -/
theorem test_storer_region :
    faultOf (go 0xF20003E7 (started 0 900 ⟨0, 3, 0, 0⟩ [])) = some (.stackRegionViolation 999) := by decide
/-- V-DM-21. -/
theorem test_move :
    look (fun t => (t.reg .r0, t.flags)) (go 0x18800000 ((started 0 900 ⟨0, 42, 0, 0⟩ []).setFlags ⟨true, true, true, true⟩)) =
      some (42, ⟨true, true, true, true⟩) := by decide
/-- V-DM-23. -/
theorem test_loadr :
    look (fun t => (t.reg .r2, t.flags)) (go 0xED800000 (started 0 900 ⟨0, 0, 0, 0xFFF7⟩ [])) =
      some (0xFFF7, ⟨false, false, false, false⟩) := by decide
/-- V-IO-1. -/
theorem test_in :
    look (fun t => (t.run, t.pc)) (go 0xCC000000 (started 3 900 ⟨0, 0, 0, 0⟩ [])) =
      some (.awaitingInput .r2 .step, 3) := by decide
/-- V-IO-3. -/
theorem test_out :
    look (fun t => (t.events, t.pc)) (go 0xD2000000 (started 0 900 ⟨0, 0x8000, 0, 0⟩ [])) =
      some ([.out (-32768)], 1) := by decide
/-- V-IO-6. -/
theorem test_push_zero :
    look (fun t => (t.sp, memGet t.mem 905)) (go 0xA8000000 (started 0 905 ⟨0, 0, 0, 0⟩ [])) =
      some (906, 0) := by decide
/-- V-IO-5. -/
theorem test_push_minus_one :
    look (fun t => (t.sp, memGet t.mem 900)) (go 0xA8000000 (started 0 900 ⟨0xFFFF, 0, 0, 0⟩ [])) =
      some (901, 0xFFFFFFFF) := by decide
/-- V-IO-11: a raw word whose low 16 bits are 0x2345. -/
theorem test_pop_low_half :
    look (fun t => (t.reg .r3, memGet t.mem 900)) (go 0xB6000000 (started 0 901 ⟨0, 0, 0, 0⟩ [(900, 0x00012345)])) =
      some (0x2345, 0) := by decide
/-- V-PRI-17. -/
theorem test_pop_next_pc :
    faultOf (go 0xB0000000 (started 999 901 ⟨0, 0, 0, 0⟩ [(900, 5)])) = some (.addressOutOfRange 1000) := by decide
/-- V-CM-4. -/
theorem test_cmp_overflow :
    look (fun t => t.flags) (go 0xD8800000 (started 0 900 ⟨0x8000, 1, 0, 0⟩ [])) =
      some ⟨true, false, true, true⟩ := by decide
/-- V-CM-7. -/
theorem test_cmp_unsigned_borrow :
    cmpFlags .unsignedBorrow 1 0xFFFF = ⟨true, false, false, false⟩ := by decide
/-- V-CM-8. -/
theorem test_clr :
    look (fun t => (t.reg .r1, t.pc)) (go 0xE2000000 (started 2 900 ⟨0, 9, 0, 0⟩ [])) =
      some (9, 3) := by decide
/-- V-CM-18. -/
theorem test_clr_next_pc :
    faultOf (go 0xE2000000 (started 999 900 ⟨0, 0, 0, 0⟩ [])) = some (.addressOutOfRange 1000) := by decide
/-- V-CM-9. -/
theorem test_nop :
    look (fun t => (t.events, t.pc)) (go 0x007FFFFB (started 8 900 ⟨0, 0, 0, 0⟩ [])) =
      some ([.literal (.integer (-5))], 9) := by decide
/-- V-CM-13. -/
theorem test_nop_char :
    faultOf (go 0x00B10000 (started 0 900 ⟨0, 0, 0, 0⟩ [])) = some (.invalidEncoding 5 0x110000) := by decide
/-- V-CM-17. -/
theorem test_halt_last_address :
    look (fun t => (t.run, t.pc)) (go 0xF8000000 (started 999 900 ⟨0, 0, 0, 0⟩ [])) =
      some (.halted, 999) := by decide

/-! ### The codec and the host operations -/

/-- V-TV-7, V-TV-9: LOAD of an Integer literal. -/
theorem test_loadValue_integer : (loadValue 0x007FFFFF).toOption = some 0xFFFF ∧
    (loadValue 0x00700000).toOption = some 0 := by decide
/-- V-TV-16: 0.1 comes back as 0.0999908447265625, which is 13420544 / 2^27; V-TV-15: -2.0. -/
theorem test_floatValue : floatValue 0x07B999 = .finite false 13420544 (-27) ∧
    floatValue 0x180000 = .finite true (2 ^ 23) (-22) := by decide
/-- V-TV-24, V-TV-25, V-TV-26. -/
theorem test_floatValue_special : floatValue 0x0FF000 = .infinity false ∧
    floatValue 0x0FF800 = .nan ∧ floatValue 1 = .finite false 2048 (-149) := by decide
/-- V-HOST-1, V-HOST-2. -/
theorem test_after_reset : (hostCall .step State.reset).1 = .error (.invalidEncoding 0 0) ∧
    (hostCall (.runToHaltOrInput 1) State.reset).1 = .stoppedAtSentinel 0 := by decide
/-- V-HOST-11. -/
theorem test_provide_input : (provideInput 2 70000 0
    ((started 3 900 ⟨0, 0, 0, 0⟩ []).setRun (.awaitingInput .r2 .step))).2.reg .r2 = 4464 := by decide
/-- V-HOST-13: the run loop resumes. -/
theorem test_provide_input_run : (provideInput 2 5 1
    ((started 3 900 ⟨0, 0, 0, 0⟩ [(4, 0xF8000000)]).setRun (.awaitingInput .r2 .run))).1 = .halted := by decide
/-- V-HOST-16, V-HOST-18. -/
theorem test_load_image_refused :
    (hostCall (.loadImage 895 [1, 1, 1, 1, 1, 1]) State.reset).1 = .error (.stackRegionViolation 900) ∧
    (hostCall (.loadImage 1000 []) State.reset).1 = .error (.addressOutOfRange 1000) := by decide
/-- V-HOST-19. -/
theorem test_load_image : (hostCall (.loadImage 899 [0xF8000000]) State.reset).2.mem =
    [(899, 0xF8000000)] := by decide
/-- V-HOST-15. -/
theorem test_step_while_waiting : (hostCall .step
    ((started 3 900 ⟨0, 0, 0, 0⟩ []).setRun (.awaitingInput .r0 .step))).1 =
      .notRunning (.awaitingInput .r0 .step) := by decide


/-! ### Witnesses: what each statement assumes can be met, clause by clause and at the bounds -/

/-- The four registers at 0. -/
def zeros : Regs := ⟨0, 0, 0, 0⟩

/-- The parameters with `CMP_CARRY_MODE = UNSIGNED_BORROW`. -/
def borrow : Config := { Config.default with cmpCarry := .unsignedBorrow }

theorem witness_DecodeOfEncodeIsTheInstruction :
    Instr.wellFormed (.load .r3 (2 ^ 25 - 1)) = true ∧ Instr.wellFormed (.jump (2 ^ 27 - 1)) = true ∧
      Instr.wellFormed (.jle .r3 .r3 (2 ^ 23 - 1)) = true ∧ Instr.wellFormed (.nop 63 0x1FFFFF) = true := by
  decide

theorem witness_UnusedBitsAreIgnoredAndEncodedAsZero :
    let s := started 999 900 zeros [(999, 0x5FFFFFFF)]
    s.run = .running ∧ s.pc < s.cfg.memSize ∧ memGet s.mem s.pc = 0x5FFFFFFF := by decide

theorem witness_OpcodeMapChoosesInstructionAndFields :
    ∀ k : Fin 32, (BitVec.ofNat 32 (k * 2 ^ 27) : Word).toNat / 2 ^ 27 = k ∧
      (BitVec.ofNat 32 (k * 2 ^ 27 + (2 ^ 27 - 1)) : Word).toNat / 2 ^ 27 = k := by decide

theorem witness_StepRunsTheDecodedInstruction :
    let s := started 999 900 zeros [(999, 0xF8000000)]
    s.run = .running ∧ s.pc < s.cfg.memSize ∧ decode (memGet s.mem s.pc) = .halt := by decide

theorem witness_EngineNotRunningDoesNothing :
    (State.reset.setRun .halted).run ≠ .running ∧
      (State.reset.setRun (.awaitingInput .r3 .run)).run ≠ .running := by decide

theorem witness_RunStateMovesAsTheInstructionSays_in :
    let s := started 999 900 zeros [(999, 0xCC000000)]
    (∃ t, step s = .next t) ∧ decode (memGet s.mem s.pc) = .inp .r2 := ⟨⟨_, rfl⟩, by decide⟩
theorem witness_RunStateMovesAsTheInstructionSays_halt :
    let s := started 999 900 zeros [(999, 0xF8000000)]
    (∃ t, step s = .next t) ∧ decode (memGet s.mem s.pc) = .halt := ⟨⟨_, rfl⟩, by decide⟩
theorem witness_RunStateMovesAsTheInstructionSays_other :
    let s := started 998 900 zeros [(998, 0xE2000000)]
    (∃ t, step s = .next t) ∧ decode (memGet s.mem s.pc) = .clr .r1 := ⟨⟨_, rfl⟩, by decide⟩

theorem witness_NextPcIsInsideMemory :
    look (fun t => t.pc) (step (started 998 900 zeros [(998, 0xE2000000)])) = some 999 := by decide

theorem witness_ResetGivesTheTableOfResetValues :
    State.reset = State.ofConfig Config.default ∧
      (Config.default = (State.reset.setRun .halted).cfg ∧
        State.reset = (hostCall .reset (State.reset.setRun .halted)).2) := by decide

/-- The smallest and the largest legal parameters. -/
theorem witness_ResetStateMeetsTheInvariant :
    ({ Config.default with memSize := 2, stackSize := 1 }).Valid ∧
      ({ Config.default with memSize := 2 ^ 32, stackSize := 2 ^ 32 - 1 }).Valid := by decide

/-- A state with one nonzero word below SP meets the invariant. -/
theorem started_inv (pc sp a : Nat) (regs : Regs) (w : Word) (hw : w ≠ 0) (hp : pc < 1000)
    (h1 : 900 ≤ sp) (h2 : sp ≤ 1000) (ha : a < sp) : (started pc sp regs [(a, w)]).Inv where
  cfgValid := by show Config.Valid Config.default; decide
  pcInside := hp
  spLow := h1
  spHigh := h2
  memWf := by simpa [started, Memory.wf] using hw
  outsideZero := by
    intro b (hb : 1000 ≤ b)
    exact if_neg (by omega)
  freeSlots := by
    intro b (hb : sp ≤ b) _
    exact if_neg (by omega)

/-- A full stack, and a POP at the last address but one. -/
theorem witness_EveryStepKeepsTheInvariant_full :
    (started 998 1000 zeros [(998, 0xB6000000)]).Inv ∧
      ∃ t, step (started 998 1000 zeros [(998, 0xB6000000)]) = .next t :=
  ⟨started_inv _ _ _ _ _ (by decide) (by decide) (by decide) (by decide) (by decide), _, rfl⟩
/-- An empty stack, and a CALL at the last ordinary address. -/
theorem witness_EveryStepKeepsTheInvariant_empty :
    (started 899 900 zeros [(899, 0xB8000000)]).Inv ∧
      ∃ t, step (started 899 900 zeros [(899, 0xB8000000)]) = .next t :=
  ⟨started_inv _ _ _ _ _ (by decide) (by decide) (by decide) (by decide) (by decide), _, rfl⟩
theorem witness_EveryHostOperationKeepsTheInvariant :
    (started 999 1000 zeros [(999, 0xF8000000)]).Inv :=
  started_inv _ _ _ _ _ (by decide) (by decide) (by decide) (by decide) (by decide)

theorem witness_WaitingEngineStandsAtItsIn :
    (∃ t, step (started 999 900 zeros [(999, 0xCC000000)]) = .next t) ∧
      WaitsAtItsIn ((started 999 900 zeros [(999, 0xCC000000)]).setRun (.awaitingInput .r2 .run)) := by
  refine ⟨⟨_, rfl⟩, ?_⟩
  intro r m h
  injection h with h1 h2
  subst h1
  decide

theorem witness_ErrorsComeOnlyFromTheirInstructions :
    faultOf (exec (.div .r0 .r1 .r2) (started 0 900 zeros [])) = some .divisionByZero ∧
    faultOf (exec (.push .r0) (started 0 1000 zeros [])) = some .stackFull ∧
    faultOf (exec (.call 5) (started 0 1000 zeros [])) = some .stackFull ∧
    faultOf (exec (.pop .r0) (started 0 900 zeros [])) = some .stackEmpty ∧
    faultOf (exec .ret (started 0 900 zeros [])) = some .stackEmpty ∧
    faultOf (exec (.store .r0 900) (started 0 900 zeros [])) = some (.stackRegionViolation 900) ∧
    faultOf (exec (.storer .r0 999) (started 0 900 zeros [])) = some (.stackRegionViolation 999) ∧
    faultOf (exec (.nop 0 0) (started 0 900 zeros [])) = some (.invalidEncoding 0 0) ∧
    faultOf (exec (.nop 6 0) (started 0 900 zeros [])) = some (.invalidEncoding 6 0) ∧
    faultOf (exec (.nop 63 0) (started 0 900 zeros [])) = some (.invalidEncoding 63 0) ∧
    faultOf (exec (.nop 5 0x110000) (started 0 900 zeros [])) = some (.invalidEncoding 5 0x110000) ∧
    faultOf (exec (.load .r0 999) (started 0 900 zeros [(999, 0x00800000)])) =
      some (.invalidEncoding 4 0) ∧
    faultOf (exec (.load .r0 999) (started 0 900 zeros [(999, 0x00B10000)])) =
      some (.invalidEncoding 5 0x110000) ∧
    faultOf (exec (.jump 1000) (started 0 900 zeros [])) = some (.addressOutOfRange 1000) := by decide

theorem witness_HostStepReportsTheOutcomeOfItsStep :
    let s (w : Word) := started 998 900 zeros [(998, w)]
    (s 0xB6000000).run = .running ∧
      faultOf (step ((s 0xB6000000).setMode .step)) = some .stackEmpty ∧
      (look (fun t => t.run) (step ((s 0xCC000000).setMode .step)) = some (.awaitingInput .r2 .step) ∧
        decode (memGet (s 0xCC000000).mem 998) = .inp .r2) ∧
      (look (fun t => t.run) (step ((s 0xF8000000).setMode .step)) = some .halted ∧
        decode (memGet (s 0xF8000000).mem 998) = .halt) ∧
      look (fun t => t.events) (step ((s 0xD2000000).setMode .step)) = some [.out 0] ∧
      decode (memGet (s 0xD2000000).mem 998) = .out .r1 := by decide

theorem witness_ErrorsComeInTheHandlersOrder :
    let s := started 999 900 zeros [(999, 0x00800000)]
    let full := started 999 1000 zeros []
    let one := started 999 901 zeros [(900, 1000)]
    s.cfg.memSize ≤ 1000 ∧
    (999 < s.cfg.memSize ∧ loadValue (memGet s.mem 999) = .error (.invalidEncoding 4 0)) ∧
    (s.cfg.stackBase ≤ 900 ∧ 900 < s.cfg.memSize) ∧ (s.cfg.stackBase ≤ 999 ∧ 999 < s.cfg.memSize) ∧
    s.reg .r1 = 0 ∧ full.sp = full.cfg.memSize ∧ s.sp = s.cfg.stackBase ∧
    (s.sp ≠ s.cfg.memSize ∧ s.cfg.memSize ≤ 1000) ∧
    (one.sp ≠ one.cfg.stackBase ∧ one.cfg.memSize ≤ (memGet one.mem (one.sp - 1)).toNat) ∧
    decodeTyped 0 0 = .error (.invalidEncoding 0 0) :=
  ⟨by decide, ⟨by decide, rfl⟩, by decide, by decide, by decide, by decide, by decide, by decide,
    by decide, rfl⟩

theorem witness_SequentialAdvancePastTheEndFaults :
    let s := started 999 901 ⟨0, 1, 0, 0⟩ [(999, 0x00200001)]
    s.cfg.memSize ≤ s.pc + 1 ∧ s.reg .r1 ≠ 0 ∧
    (999 < s.cfg.memSize ∧ loadValue (memGet s.mem 999) = .ok 1) ∧ 899 < s.cfg.stackBase ∧
    s.sp ≠ s.cfg.memSize ∧ s.sp ≠ s.cfg.stackBase ∧ decodeTyped 2 0 = .ok (.natural 0) :=
  ⟨by decide, by decide, ⟨by decide, rfl⟩, by decide, by decide, by decide, rfl⟩

theorem witness_FlagsChangeOnlyAsTheTableSays :
    (∃ t, exec (.move .r0 .r1) (started 998 900 zeros []) = .next t) ∧
      Claims.flagsWritten (.move .r0 .r1) = ⟨false, false, false, false⟩ ∧
      (∃ t, exec (.add .r0 .r1 .r2) (started 998 900 zeros []) = .next t) ∧
      (Claims.flagsWritten (.add .r0 .r1 .r2)).n = false := ⟨⟨_, rfl⟩, rfl, ⟨_, rfl⟩, rfl⟩

theorem witness_OnlyBeqReadsTheFlags :
    (∀ a, Instr.cmp .r0 .r1 ≠ .beq a) ∧ ∃ t, exec (.cmp .r0 .r1) (started 998 900 zeros []) = .next t :=
  ⟨(fun _ h => nomatch h), _, rfl⟩

theorem witness_RegistersChangeOnlyInTheDestination :
    (∃ t, exec (.add .r0 .r1 .r2) (started 998 900 zeros []) = .next t) ∧
      Claims.destination (.add .r0 .r1 .r2) ≠ some .r0 ∧
      (∃ t, exec (.inp .r0) (started 999 900 zeros []) = .next t) ∧
      Claims.destination (.inp .r0) ≠ some .r0 := ⟨⟨_, rfl⟩, by decide, ⟨_, rfl⟩, by decide⟩

theorem witness_MemoryChangesOnlyWhereTheInstructionStores :
    (∃ t, exec (.store .r0 899) (started 998 900 zeros []) = .next t) ∧
      Claims.storesTo State.reset (.store .r0 899) ≠ some 900 ∧
      Claims.usesStack (.store .r0 899) = false ∧
      (∃ t, exec (.push .r0) (started 998 999 zeros []) = .next t) ∧
      Claims.storesTo (started 998 999 zeros []) (.push .r0) ≠ some 998 :=
  ⟨⟨_, rfl⟩, by decide, rfl, ⟨_, rfl⟩, by decide⟩

theorem witness_EventsComeOnlyFromOutAndNop :
    (∃ t, exec (.out .r3) (started 998 900 zeros []) = .next t) ∧
      (∃ t, exec (.nop 1 0) (started 998 900 zeros []) = .next t) ∧
      (∃ t, exec (.clr .r3) (started 998 900 zeros []) = .next t) ∧
      (∀ ra, Instr.clr .r3 ≠ .out ra) ∧ ∀ tag pay, Instr.clr .r3 ≠ .nop tag pay :=
  ⟨⟨_, rfl⟩, ⟨_, rfl⟩, ⟨_, rfl⟩, (fun _ h => nomatch h), (fun _ _ h => nomatch h)⟩

/-- The premise `pc + 1 < MEM_SIZE`, at its bound. -/
theorem witness_AddWritesSumZeroCarryOverflow :
    (started 998 900 zeros []).pc + 1 < (started 998 900 zeros []).cfg.memSize := by decide
theorem witness_SubWritesDifferenceZeroNegative :
    (started 998 1000 zeros []).pc + 1 < (started 998 1000 zeros []).cfg.memSize := by decide
theorem witness_MulWritesLowProductZeroCarryOverflow :
    (started 998 901 zeros []).pc + 1 < (started 998 901 zeros []).cfg.memSize := by decide
theorem witness_DivWritesTruncatedQuotientOrFaults :
    let s := started 998 900 ⟨0x8000, 0xFFFF, 0, 0⟩ []
    (s.reg .r1 ≠ 0 ∧ s.pc + 1 < s.cfg.memSize) ∧ s.reg .r2 = 0 := by decide
theorem witness_LogicInstructionsWriteTheirBits :
    (started 998 900 ⟨0xFFFF, 0, 0, 0⟩ []).pc + 1 < State.reset.cfg.memSize := by decide
theorem witness_ShiftsMoveBitsByTheAmountModulo16 :
    let s := started 998 900 ⟨0x8001, 15, 0, 0⟩ []
    s.pc + 1 < s.cfg.memSize ∧ (s.reg .r1).toNat % 16 = 15 := by decide
theorem witness_RotatesMoveBitsInACircle :
    let s := started 997 900 ⟨0x8001, 15, 0, 0⟩ []
    s.pc + 1 < s.cfg.memSize ∧ Reg.r0 ≠ Reg.r1 ∧ s.pc + 2 < s.cfg.memSize := by decide

theorem witness_JumpGoesToItsAddress :
    999 < State.reset.cfg.memSize ∧ State.reset.cfg.memSize ≤ 1000 := by decide
theorem witness_BeqBranchesOnTheZeroFlag :
    let s := started 998 900 zeros []
    let z := (started 999 900 zeros []).setFlags ⟨false, true, false, false⟩
    (z.flags.z = true ∧ 999 < z.cfg.memSize) ∧ (z.flags.z = true ∧ z.cfg.memSize ≤ 1000) ∧
      (s.flags.z = false ∧ s.pc + 1 < s.cfg.memSize) ∧
      ((s.setPc 999).flags.z = false ∧ s.cfg.memSize ≤ (s.setPc 999).pc + 1) := by decide
/-- The next pc that BNE chooses, taken and untaken, on both sides of the bound. -/
theorem witness_CompareBranchesWriteFlagsAndBranch :
    let next (pc a : Nat) (ra rb : Half) := if decide (ra ≠ rb) then a else pc + 1
    next 999 999 0 1 < 1000 ∧ next 998 5000 1 1 < 1000 ∧ 1000 ≤ next 0 1000 0 1 ∧
      1000 ≤ next 999 0 1 1 ∧ State.reset.cfg.memSize = 1000 := by decide
theorem witness_CallPushesTheReturnAddress :
    let s := started 999 999 zeros []
    (s.sp < s.cfg.memSize ∧ 999 < s.cfg.memSize ∧ s.pc + 1 < 2 ^ 32) ∧
      (started 999 1000 zeros []).sp = s.cfg.memSize ∧ (s.sp < s.cfg.memSize ∧ s.cfg.memSize ≤ 1000) := by
  decide
theorem witness_RetGoesToThePoppedWord :
    let ok := started 999 901 zeros [(900, 999)]
    let bad := started 999 901 zeros [(900, 1000)]
    (ok.cfg.stackBase < ok.sp ∧ (memGet ok.mem (ok.sp - 1)).toNat < ok.cfg.memSize) ∧
      State.reset.sp = State.reset.cfg.stackBase ∧
      (bad.cfg.stackBase < bad.sp ∧ bad.cfg.memSize ≤ (memGet bad.mem (bad.sp - 1)).toNat) := by decide
theorem witness_RetUndoesCall :
    let s := started 998 999 zeros [(998, 0xB80003E7)]
    s.Inv ∧ s.sp < s.cfg.memSize ∧ 999 < s.cfg.memSize ∧ s.pc + 1 < s.cfg.memSize :=
  ⟨started_inv _ _ _ _ _ (by decide) (by decide) (by decide) (by decide) (by decide), by decide⟩

/-- The tag of the word, for a word of each kind, the largest of tag 0, tags 6 and 2047 among them. -/
theorem witness_LoadReadsRawWordsAndLiterals :
    State.reset.cfg.memSize ≤ 1000 ∧ 999 < State.reset.cfg.memSize ∧
      (started 998 900 zeros []).pc + 1 < State.reset.cfg.memSize ∧
      (0x001FFFFF : Word).toNat / 2 ^ 21 = 0 ∧ 6 ≤ (0x00C00000 : Word).toNat / 2 ^ 21 ∧
      6 ≤ (0xFFFFFFFF : Word).toNat / 2 ^ 21 ∧ (0x003FFFFF : Word).toNat / 2 ^ 21 = 1 ∧
      (0x00400000 : Word).toNat / 2 ^ 21 = 2 ∧ (0x00700000 : Word).toNat / 2 ^ 21 = 3 ∧
      (0x009FFFFF : Word).toNat / 2 ^ 21 = 4 ∧
      ((0x00B0FFFF : Word).toNat / 2 ^ 21 = 5 ∧ (0x00B0FFFF : Word).toNat % 2 ^ 21 ≤ 0x10FFFF) ∧
      ((0x00B10000 : Word).toNat / 2 ^ 21 = 5 ∧ 0x10FFFF < (0x00B10000 : Word).toNat % 2 ^ 21) := by
  decide
theorem witness_StoresWriteTheSignedRegisterValue :
    let s := started 998 900 zeros []
    (899 < s.cfg.stackBase ∧ s.pc + 1 < s.cfg.memSize) ∧ s.cfg.memSize ≤ 1000 ∧
      (s.cfg.stackBase ≤ 900 ∧ 900 < s.cfg.memSize) ∧ (s.cfg.stackBase ≤ 999 ∧ 999 < s.cfg.memSize) := by
  decide
theorem witness_MoveAndLoadrCopyTheSecondRegister :
    (started 998 900 ⟨1, 2, 3, 4⟩ []).pc + 1 < State.reset.cfg.memSize := by decide
theorem witness_RegisterValuesRoundTripThroughMemory :
    let s := started 997 999 zeros []
    (899 < s.cfg.stackBase ∧ s.pc + 2 < s.cfg.memSize) ∧
      (s.cfg.stackBase ≤ s.sp ∧ s.sp < s.cfg.memSize ∧ s.pc + 2 < s.cfg.memSize) := by decide
theorem witness_MemoryWordReadsAsLastWritten :
    State.reset.cfg.stackBase ≤ State.reset.cfg.memSize ∧
      ∃ t, State.reset.memWrite 899 0 = .ok t := ⟨by decide, _, rfl⟩

theorem witness_InSuspendsUntilItsInputIsProvided :
    let last := started 999 900 zeros []
    let s := started 998 900 zeros []
    (4 : Int) ≠ Reg.r2.number ∧ ((2 : Int) = Reg.r2.number ∧ last.cfg.memSize ≤ last.pc + 1) ∧
      ((2 : Int) = Reg.r2.number ∧ s.pc + 1 < s.cfg.memSize) ∧ s.mode = .step ∧
      (s.setMode .run).mode = .run := by decide
theorem witness_ProvideInputCompletesOnlyThePendingIn :
    let s := (started 998 900 zeros []).setRun (.awaitingInput .r2 .run)
    (∀ r m, State.reset.run ≠ .awaitingInput r m) ∧ s.run = .awaitingInput .r2 .run ∧
      ((-1 : Int) < 0 ∧ (4 : Int) > 3 ∧ (1 : Int) ≠ Reg.r2.number) ∧
      ((2 : Int) = Reg.r2.number ∧ s.cfg.memSize ≤ (s.setPc 999).pc + 1) ∧
      ((2 : Int) = Reg.r2.number ∧ s.pc + 1 < s.cfg.memSize) :=
  ⟨(fun _ _ h => nomatch h), rfl, by decide⟩
theorem witness_OutEmitsTheSignedValue :
    (started 998 900 ⟨0x8000, 0, 0, 0⟩ []).pc + 1 < State.reset.cfg.memSize := by decide
theorem witness_PushStoresAtTheStackPointer :
    let s := started 998 999 zeros []
    (s.sp < s.cfg.memSize ∧ s.pc + 1 < s.cfg.memSize) ∧
      (started 998 1000 zeros []).sp = s.cfg.memSize := by decide
theorem witness_PopTakesTheTopSlotAndClearsIt :
    let s := started 998 901 zeros [(900, 0x00200001)]
    (s.cfg.stackBase < s.sp ∧ s.pc + 1 < s.cfg.memSize) ∧ State.reset.sp = State.reset.cfg.stackBase := by
  decide
/-- As many words as there are slots. -/
theorem witness_PoppedWordsComeInReverseOrder :
    State.reset.cfg.stackBase ≤ State.reset.sp ∧
      State.reset.sp + (List.replicate 100 (0 : Word)).length ≤ State.reset.cfg.memSize := by decide

theorem witness_CmpWritesAllFourFlags :
    let s := started 998 900 zeros []
    (s.pc + 1 < s.cfg.memSize ∧ s.cfg.cmpCarry = .asNegative) ∧
      (State.ofConfig borrow).pc + 1 < borrow.memSize ∧ borrow.cmpCarry = .unsignedBorrow := by decide
theorem witness_ClrChangesNothingButPc :
    (started 998 900 zeros []).pc + 1 < State.reset.cfg.memSize ∧
      State.reset.cfg.memSize ≤ (started 999 900 zeros []).pc + 1 := by decide
/-- The tags 1 to 5 are met by those tags; the others at the bounds of their ranges. -/
theorem witness_NopEmitsItsTypedLiteral :
    (started 998 900 zeros []).pc + 1 < State.reset.cfg.memSize ∧
      ((5 : BitVec 6) = 5 ∧ (0x10FFFF : BitVec 21).toNat ≤ 0x10FFFF) ∧
      ((0 : BitVec 6).toNat = 0 ∧ 6 ≤ (6 : BitVec 6).toNat ∧ 6 ≤ (63 : BitVec 6).toNat) ∧
      0x10FFFF < (0x110000 : BitVec 21).toNat := by decide
theorem witness_TypedValuesDecodeToWhatWasEncoded :
    encodeTyped (.integer (-2 ^ 20)) = some (3, 0x100000) ∧
      encodeTyped (.char 0x10FFFF) = some (5, 0x10FFFF) ∧ encodeTyped (.float 1) = some (4, 1) ∧
      encodeTyped (.natural (2 ^ 21)) = none ∧ encodeTyped (.integer (2 ^ 20)) = none ∧
      encodeTyped (.char 0x110000) = none := by decide
/-- The exponent and mantissa of a payload of each kind. -/
theorem witness_FloatPayloadsHaveTheirBinary32Value :
    ((0x0FF000 : BitVec 21).toNat / 2 ^ 12 % 2 ^ 8 = 255 ∧ (0x0FF000 : BitVec 21).toNat % 2 ^ 12 = 0) ∧
      ((0x0FF800 : BitVec 21).toNat / 2 ^ 12 % 2 ^ 8 = 255 ∧ (0x0FF800 : BitVec 21).toNat % 2 ^ 12 ≠ 0) ∧
      (1 : BitVec 21).toNat / 2 ^ 12 % 2 ^ 8 = 0 ∧
      ((0x001000 : BitVec 21).toNat / 2 ^ 12 % 2 ^ 8 ≠ 0 ∧
        (0x001000 : BitVec 21).toNat / 2 ^ 12 % 2 ^ 8 ≠ 255) := by decide

theorem witness_HaltStopsAtItsOwnAddress :
    Claims.ImageFits Config.default 899 [0xF8000000] ∧ Claims.ImageFits Config.default 999 [] :=
  ⟨.inr ⟨by decide, by decide⟩, .inl ⟨rfl, by decide⟩⟩
theorem witness_LoadImagePlacesAllWordsOrNone :
    (Claims.ImageFits State.reset.cfg 899 [1] ∧ Claims.ImageFits State.reset.cfg 999 []) ∧
      (([] : List Word) = [] ∧ State.reset.cfg.memSize ≤ 1000) ∧
      (([1] : List Word) ≠ [] ∧ State.reset.cfg.stackBase < 900 + ([1] : List Word).length) ∧
      (([1] : List Word) ≠ [] ∧ State.reset.cfg.stackBase < 1000 + ([1] : List Word).length) :=
  ⟨⟨.inr ⟨by decide, by decide⟩, .inl ⟨rfl, by decide⟩⟩, by decide⟩
theorem witness_ResetThenLoadImageIsACleanLaunch :
    Claims.ImageFits (State.reset.setRun .halted).cfg 899 [0xF8000000] := .inr ⟨by decide, by decide⟩

theorem witness_RunLoopRepeatsTheStep :
    let s (w : Word) := started 998 900 zeros [(998, w)]
    (s 0xF8000000).run = .running ∧ memGet State.reset.mem State.reset.pc = 0 ∧
      memGet (s 0xF8000000).mem (s 0xF8000000).pc ≠ 0 ∧
      faultOf (step ((s 0xB6000000).setMode .run)) = some .stackEmpty ∧
      look (fun t => t.run) (step ((s 0xF8000000).setMode .run)) = some .halted ∧
      look (fun t => t.run) (step ((s 0xCC000000).setMode .run)) = some (.awaitingInput .r2 .run) ∧
      look (fun t => t.run) (step ((s 0xE2000000).setMode .run)) = some .running := by decide
theorem witness_RunLoopAnswerDoesNotDependOnFuel :
    (hostCall (.runToHaltOrInput 1) (started 999 900 zeros [(999, 0xF8000000)])).1 ≠ .notFinished := by
  decide
theorem witness_FirstStepAfterResetFaults :
    ({ Config.default with memSize := 2, stackSize := 1 }).Valid := by decide
theorem witness_HostReadsReportAndChangeNothing :
    ((-1 : Int) < 0 ∧ (4 : Int) > 3) ∧ 999 < State.reset.cfg.memSize ∧
      State.reset.cfg.memSize ≤ 1000 := by decide


end Sys2Proof.Tests
end

section
/-! SUPPORT. What a completed instruction can do, said once: IN and HALT change only the run state, and
every other instruction commits a copy of the state that its handler builds from the shared operations
(40_engine.md R112). The facts about every Step are inductions over those operations. -/

namespace Sys2Proof.Machine

/-! ### The copy a handler builds -/

/-- `u` is a copy of `s` that the handler of `i` can build from the named operations. A register is
written only where the table of register writes names it (10_state.md R22); memory and SP change only
through an ordinary write, Push and Pop, each of which succeeded. -/
inductive HandlerCopy (i : Instr) (s : State) : State → Prop where
  | start : HandlerCopy i s s
  | setReg {u : State} {r : Reg} {v : Half} (hu : HandlerCopy i s u)
      (hr : Claims.destination i = some r) : HandlerCopy i s (u.setReg r v)
  | setFlags {u : State} {f : Flags} (hu : HandlerCopy i s u) : HandlerCopy i s (u.setFlags f)
  | emit {u : State} {ev : Event} (hu : HandlerCopy i s u) : HandlerCopy i s (u.emit ev)
  | store {u t : State} {a : Nat} {v : Word} (hu : HandlerCopy i s u) (ht : u.memWrite a v = .ok t) :
      HandlerCopy i s t
  | push {u t : State} {v : Word} (hu : HandlerCopy i s u) (ht : u.push v = .ok t) :
      HandlerCopy i s t
  | pop {u t : State} {w : Word} (hu : HandlerCopy i s u) (ht : u.pop = .ok (w, t)) :
      HandlerCopy i s t

/-- `t` is a handler's copy, committed at a next pc inside memory (10_state.md R26). -/
def CommitsCopy (i : Instr) (s t : State) : Prop :=
  ∃ u n, HandlerCopy i s u ∧ n < u.cfg.memSize ∧ t = u.setPc n

theorem HandlerCopy.commitsCopy {i : Instr} {s u t : State} {n : Nat} (hu : HandlerCopy i s u)
    (h : commit n u = .next t) : CommitsCopy i s t :=
  ⟨u, n, hu, commit_next h⟩

theorem execDiv_next {ra rb rc : Reg} {s t : State} (h : execDiv ra rb rc s = .next t) :
    s16 (s.reg rb) ≠ 0 ∧
      advance ((s.setReg rc (u16 (divT (s16 (s.reg ra)) (s16 (s.reg rb))))).setFlags
        (divFlags s.flags (s.reg ra) (s.reg rb))) = .next t := by
  unfold execDiv at h
  split at h
  · exact nomatch h
  · next hb => exact ⟨hb, h⟩

/-- Everything an instruction that completes can do. -/
theorem exec_next_cases {i : Instr} {s t : State} (h : exec i s = .next t) :
    (∃ ra, i = .inp ra ∧ t = s.setRun (.awaitingInput ra s.mode)) ∨
      (i = .halt ∧ t = s.setRun .halted) ∨ CommitsCopy i s t := by
  cases i with
  | inp ra =>
    injection h with h
    exact .inl ⟨ra, rfl, h.symm⟩
  | halt =>
    injection h with h
    exact .inr (.inl ⟨rfl, h.symm⟩)
  | jump | beq | clr => exact .inr (.inr (HandlerCopy.start.commitsCopy h))
  | bne | blt | jle | cmp => exact .inr (.inr (HandlerCopy.start.setFlags.commitsCopy h))
  | add | sub | mul => exact .inr (.inr ((HandlerCopy.start.setReg rfl).setFlags.commitsCopy h))
  | div =>
    obtain ⟨_, h⟩ := execDiv_next h
    exact .inr (.inr ((HandlerCopy.start.setReg rfl).setFlags.commitsCopy h))
  | and | or | nor | not | shl | shr | rol | ror | move | loadr =>
    exact .inr (.inr ((HandlerCopy.start.setReg rfl).commitsCopy h))
  | out => exact .inr (.inr (HandlerCopy.start.emit.commitsCopy h))
  | nop =>
    obtain ⟨_, _, h⟩ := attempt_next h
    exact .inr (.inr (HandlerCopy.start.emit.commitsCopy h))
  | load =>
    obtain ⟨_, _, h⟩ := attempt_next h
    obtain ⟨_, _, h⟩ := attempt_next h
    exact .inr (.inr ((HandlerCopy.start.setReg rfl).commitsCopy h))
  | store | storer =>
    obtain ⟨_, ht, h⟩ := attempt_next h
    exact .inr (.inr ((HandlerCopy.start.store ht).commitsCopy h))
  | push | call =>
    obtain ⟨_, ht, h⟩ := attempt_next h
    exact .inr (.inr ((HandlerCopy.start.push ht).commitsCopy h))
  | pop =>
    obtain ⟨_, ht, h⟩ := attempt_next h
    exact .inr (.inr (((HandlerCopy.start.pop ht).setReg rfl).commitsCopy h))
  | ret =>
    obtain ⟨_, ht, h⟩ := attempt_next h
    exact .inr (.inr ((HandlerCopy.start.pop ht).commitsCopy h))

/-- A Step that answers a next state ran the instruction at pc, from a Running engine (R111, R115). -/
theorem step_next {s t : State} (h : step s = .next t) :
    s.run = .running ∧ s.pc < s.cfg.memSize ∧ exec (decode (memGet s.mem s.pc)) s = .next t := by
  unfold step at h
  split at h
  · next hrun =>
    obtain ⟨w, hw, h⟩ := attempt_next h
    obtain ⟨hpc, rfl⟩ := memRead_ok hw
    exact ⟨hrun, hpc, h⟩
  · exact nomatch h

/-! ### What no handler changes -/

theorem HandlerCopy.run_eq {i : Instr} {s u : State} (h : HandlerCopy i s u) : u.run = s.run := by
  induction h with
  | start => rfl
  | setReg _ _ ih | setFlags _ ih | emit _ ih => exact ih
  | store _ ht ih =>
    obtain ⟨_, _, rfl⟩ := memWrite_ok ht
    exact ih
  | push _ ht ih =>
    obtain ⟨_, rfl⟩ := push_ok ht
    exact ih
  | pop _ ht ih =>
    obtain ⟨_, _, rfl⟩ := pop_ok ht
    exact ih

theorem HandlerCopy.reg_eq {i : Instr} {s u : State} {q : Reg} (h : HandlerCopy i s u)
    (hq : Claims.destination i ≠ some q) : u.reg q = s.reg q := by
  induction h with
  | start => rfl
  | setReg _ hr ih =>
    have hne : q ≠ _ := fun e => hq (e ▸ hr)
    rw [setReg_reg_other _ _ hne, ih]
  | setFlags _ ih | emit _ ih => exact ih
  | store _ ht ih =>
    obtain ⟨_, _, rfl⟩ := memWrite_ok ht
    exact ih
  | push _ ht ih =>
    obtain ⟨_, rfl⟩ := push_ok ht
    exact ih
  | pop _ ht ih =>
    obtain ⟨_, _, rfl⟩ := pop_ok ht
    exact ih

end Sys2Proof.Machine
end

section
/-! PROOFS. The invariant of the architectural state: reset meets it, each state operation keeps it,
and so every Step keeps it (10_state.md R26 to R28, R31). -/

namespace Sys2Proof.Machine

/-! ### The invariant and the state operations -/

/-- The invariant speaks of the parameters, pc, SP and memory only. -/
theorem State.Inv.of_eq {s t : State} (h : s.Inv) (hcfg : t.cfg = s.cfg)
    (hpc : t.pc < s.cfg.memSize) (hsp : t.sp = s.sp) (hmem : t.mem = s.mem) : t.Inv where
  cfgValid := hcfg ▸ h.cfgValid
  pcInside := hcfg ▸ hpc
  spLow := by rw [hcfg, hsp]; exact h.spLow
  spHigh := by rw [hcfg, hsp]; exact h.spHigh
  memWf := hmem ▸ h.memWf
  outsideZero := by rw [hcfg, hmem]; exact h.outsideZero
  freeSlots := by rw [hcfg, hsp, hmem]; exact h.freeSlots

theorem stackBase_le_memSize (c : Config) : c.stackBase ≤ c.memSize := Nat.sub_le _ _

/-- The invariant after one word inside memory is written and SP is moved within its range, where
every slot that is then free reads 0. -/
theorem State.Inv.setMem_setSp {s : State} {a n : Nat} {v : Word} (h : s.Inv)
    (ha : a < s.cfg.memSize) (hlow : s.cfg.stackBase ≤ n) (hhigh : n ≤ s.cfg.memSize)
    (hfree : ∀ b, n ≤ b → b < s.cfg.memSize → memGet (memSet s.mem a v) b = 0) :
    ((s.setMem (memSet s.mem a v)).setSp n).Inv where
  cfgValid := h.cfgValid
  pcInside := h.pcInside
  spLow := hlow
  spHigh := hhigh
  memWf := memSet_wf s.mem a v h.memWf
  outsideZero b hb :=
    (memGet_memSet_other s.mem v (ha.trans_le hb).ne').trans (h.outsideZero b hb)
  freeSlots := hfree

/-- An ordinary write ends below the stack region, so it meets no free slot (20_memory.md R53). -/
theorem State.Inv.memWrite {s t : State} {a : Nat} {v : Word} (h : s.Inv)
    (ht : s.memWrite a v = .ok t) : t.Inv := by
  obtain ⟨hmem, hbase, rfl⟩ := memWrite_ok ht
  refine h.setMem_setSp hmem h.spLow h.spHigh fun b hb hlt => ?_
  have hne : b ≠ a := ((hbase.trans_le h.spLow).trans_le hb).ne'
  exact (memGet_memSet_other s.mem v hne).trans (h.freeSlots b hb hlt)

/-- Push fills the lowest free slot, which lies inside memory (20_memory.md R56). -/
theorem State.Inv.push {s t : State} {v : Word} (h : s.Inv) (ht : s.push v = .ok t) : t.Inv := by
  obtain ⟨hne, rfl⟩ := push_ok ht
  have hroom : s.sp < s.cfg.memSize := lt_of_le_of_ne h.spHigh hne
  refine h.setMem_setSp hroom (Nat.le_succ_of_le h.spLow) hroom fun b hb hlt => ?_
  have hne : b ≠ s.sp := (Nat.lt_of_succ_le hb).ne'
  exact (memGet_memSet_other s.mem v hne).trans (h.freeSlots b (Nat.le_of_succ_le hb) hlt)

/-- Pop clears the slot it frees (20_memory.md R57). -/
theorem State.Inv.pop {s t : State} {w : Word} (h : s.Inv) (ht : s.pop = .ok (w, t)) : t.Inv := by
  obtain ⟨hne, -, rfl⟩ := pop_ok ht
  have hlow := h.spLow
  have hhigh := h.spHigh
  refine h.setMem_setSp (by omega) (by omega) (by omega) fun b hb hlt => ?_
  rw [memGet_memSet]
  split
  · rfl
  · exact h.freeSlots b (by omega) hlt

theorem HandlerCopy.inv {i : Instr} {s u : State} (h : HandlerCopy i s u) (hs : s.Inv) : u.Inv := by
  induction h with
  | start => exact hs
  | setReg _ _ ih | setFlags _ ih | emit _ ih => exact ih.of_eq rfl ih.pcInside rfl rfl
  | store _ ht ih => exact ih.memWrite ht
  | push _ ht ih => exact ih.push ht
  | pop _ ht ih => exact ih.pop ht

theorem exec_keeps_inv {i : Instr} {s t : State} (hs : s.Inv) (h : exec i s = .next t) : t.Inv := by
  obtain ⟨ra, -, rfl⟩ | ⟨-, rfl⟩ | ⟨u, n, hu, hn, rfl⟩ := exec_next_cases h
  · exact hs.of_eq rfl hs.pcInside rfl rfl
  · exact hs.of_eq rfl hs.pcInside rfl rfl
  · exact (hu.inv hs).of_eq rfl hn rfl rfl

theorem ofConfig_inv {c : Config} (hc : c.Valid) : (State.ofConfig c).Inv where
  cfgValid := hc
  pcInside := by
    obtain ⟨_, hlt, _⟩ := hc
    exact Nat.zero_lt_of_lt hlt
  spLow := le_rfl
  spHigh := stackBase_le_memSize c
  memWf := rfl
  outsideZero _ _ := rfl
  freeSlots _ _ _ := rfl

/-! ### The statements -/

/-- Settles O13: every operation a handler uses keeps the invariant, and the commit puts pc inside. -/
theorem everyStepKeepsTheInvariant : Obligations.EveryStepKeepsTheInvariant := by
  intro s t hs h
  obtain ⟨_, _, hexec⟩ := step_next h
  exact exec_keeps_inv hs hexec

/-- Settles O10: IN and HALT keep the pc that the fetch checked, and the commit checks every other. -/
theorem nextPcIsInsideMemory : Obligations.NextPcIsInsideMemory := by
  intro s t h
  obtain ⟨_, hpc, hexec⟩ := step_next h
  obtain ⟨ra, -, rfl⟩ | ⟨-, rfl⟩ | ⟨u, n, -, hn, rfl⟩ := exec_next_cases hexec
  · exact hpc
  · exact hpc
  · exact hn

/-- Settles O11: each row of the table of R34 is a field of `State.ofConfig`. -/
theorem resetGivesTheTableOfResetValues : Obligations.ResetGivesTheTableOfResetValues := by
  intro s
  refine ⟨rfl, ?_⟩
  rintro c t (rfl | ⟨rfl, rfl⟩)
  · exact ⟨rfl, rfl, fun _ => rfl, rfl, rfl, rfl⟩
  · exact ⟨rfl, rfl, fun _ => rfl, rfl, rfl, rfl⟩

/-- Settles O12, with the defaults of R5 as one legal choice. -/
theorem resetStateMeetsTheInvariant : Obligations.ResetStateMeetsTheInvariant :=
  ⟨fun _ hc => ofConfig_inv hc, ofConfig_inv (by decide)⟩

end Sys2Proof.Machine
end

section
/-! PROOFS. A waiting engine stands at its IN (10_state.md R29, 44_io_stack.md R200), with the rule by
which a property of the state is kept by every host operation. -/

namespace Sys2Proof.Machine

/-! ### Properties that every host operation keeps -/

theorem hostStep_keeps {P : State → Prop}
    (hstep : ∀ s t, P s → step (s.setMode .step) = .next t → P t) {s : State} (hs : P s) :
    P (hostStep s).2 := by
  unfold hostStep
  split
  · exact hs
  · exact hs
  · next t ht => split <;> exact hstep s t hs ht

theorem runLoop_keeps {P : State → Prop}
    (hstep : ∀ s t, P s → step (s.setMode .run) = .next t → P t) (fuel : Nat) {s : State}
    (hs : P s) : P (runLoop fuel s).2 := by
  induction fuel generalizing s with
  | zero => exact hs
  | succ fuel ih =>
    unfold runLoop
    split
    · exact hs
    · split
      · exact hs
      · exact hs
      · next t ht =>
        have hp : P t := hstep s t hs ht
        split
        · exact ih hp
        · exact hp
        · exact hp

theorem runToHaltOrInput_keeps {P : State → Prop}
    (hstep : ∀ s t, P s → step (s.setMode .run) = .next t → P t) (fuel : Nat) {s : State}
    (hs : P s) : P (runToHaltOrInput fuel s).2 := by
  unfold runToHaltOrInput
  split
  · exact runLoop_keeps hstep fuel hs
  · exact hs

theorem provideInput_keeps {P : State → Prop}
    (hstep : ∀ s t, P s → step (s.setMode .run) = .next t → P t)
    (haccept : ∀ s r v, P s → s.pc + 1 < s.cfg.memSize → P (acceptInput r v s))
    (i v : Int) (fuel : Nat) {s : State} (hs : P s) : P (provideInput i v fuel s).2 := by
  unfold provideInput
  split
  · next r mode _ =>
    split
    · exact hs
    split
    · exact hs
    split
    · exact hs
    · next hpc =>
      have hp : P (acceptInput r v s) := haccept s r v hs (Nat.lt_of_not_le hpc)
      cases mode with
      | step => exact hp
      | run => exact runToHaltOrInput_keeps hstep fuel hp
  · exact hs

theorem loadImage_keeps {P : State → Prop}
    (hload : ∀ s base words, P s → loadError s.cfg base words = none →
      P (((s.setMem (writeImage s.mem base words)).setPc base).setRun .running))
    (base : Nat) (words : List Word) {s : State} (hs : P s) : P (loadImage base words s).2 := by
  unfold loadImage
  split
  · exact hs
  · next hnone => exact hload s base words hs hnone

/-- A property that reset, an accepted image, a Step in either mode and an accepted input keep is kept
by every host operation, accepted or not. -/
theorem hostCall_keeps {P : State → Prop}
    (hreset : ∀ s, P s → P (State.ofConfig s.cfg))
    (hload : ∀ s base words, P s → loadError s.cfg base words = none →
      P (((s.setMem (writeImage s.mem base words)).setPc base).setRun .running))
    (hstep : ∀ s m t, P s → step (s.setMode m) = .next t → P t)
    (haccept : ∀ s r v, P s → s.pc + 1 < s.cfg.memSize → P (acceptInput r v s))
    (op : HostCall) {s : State} (hs : P s) : P (hostCall op s).2 := by
  cases op with
  | reset => exact hreset s hs
  | loadImage base words => exact loadImage_keeps hload base words hs
  | step => exact hostStep_keeps (fun s => hstep s .step) hs
  | runToHaltOrInput fuel => exact runToHaltOrInput_keeps (fun s => hstep s .run) fuel hs
  | provideInput i v fuel => exact provideInput_keeps (fun s => hstep s .run) haccept i v fuel hs
  | readRegister | readFlag | readMemory | getCp => exact hs

/-! ### The waiting engine -/

theorem waitsAtItsIn_of_not_awaiting {s : State} (h : ∀ r m, s.run ≠ .awaitingInput r m) :
    WaitsAtItsIn s :=
  fun r m hrun => absurd hrun (h r m)

theorem waitsAtItsIn_of_running {s : State} (h : s.run = .running) : WaitsAtItsIn s :=
  waitsAtItsIn_of_not_awaiting fun _ _ hrun => nomatch h.symm.trans hrun

/-- Only IN suspends the engine, and it keeps its pc and the memory. -/
theorem step_waitsAtItsIn {s t : State} (h : step s = .next t) : WaitsAtItsIn t := by
  obtain ⟨hrun, _, hexec⟩ := step_next h
  obtain ⟨ra, hin, rfl⟩ | ⟨-, rfl⟩ | ⟨u, n, hu, -, rfl⟩ := exec_next_cases hexec
  · intro r m hwait
    injection hwait with hr
    exact hr ▸ hin
  · exact waitsAtItsIn_of_not_awaiting fun _ _ hrun => nomatch hrun
  · exact waitsAtItsIn_of_running (hu.run_eq.trans hrun)

/-- Settles O15: reset, an accepted image and an accepted input leave the engine Running. -/
theorem waitingEngineStandsAtItsIn : Obligations.WaitingEngineStandsAtItsIn := by
  refine ⟨fun _ _ h => step_waitsAtItsIn h, fun op s hs => ?_⟩
  refine hostCall_keeps ?_ ?_ ?_ ?_ op hs
  · exact fun _ _ => waitsAtItsIn_of_running rfl
  · exact fun _ _ _ _ _ => waitsAtItsIn_of_running rfl
  · exact fun _ _ _ _ h => step_waitsAtItsIn h
  · exact fun _ _ _ _ _ => waitsAtItsIn_of_running rfl

end Sys2Proof.Machine
end

section
/-! PROOFS. What a Step changes: the sequential advance past the end (10_state.md R26), the registers
(R22) and the flags (R24). -/

namespace Sys2Proof.Machine

/-! ### The sequential advance -/

/-- Settles O19: each of these instructions ends in `advance` of a copy with the pc of `s`. -/
theorem sequentialAdvancePastTheEndFaults : Obligations.SequentialAdvancePastTheEndFaults := by
  intro ra rb rc s hend
  refine ⟨?alu, ?div, ?load, ?store, ?push, ?pop, ?nop⟩
  case alu =>
    intro i hi
    simp only [List.mem_cons, List.not_mem_nil, or_false] at hi
    rcases hi with rfl | rfl | rfl | rfl | rfl | rfl | rfl | rfl | rfl | rfl | rfl | rfl | rfl | rfl |
      rfl | rfl
    all_goals exact advance_of_le hend
  case div =>
    intro hb
    have hdiv : s16 (s.reg rb) ≠ 0 := fun h0 => hb (BitVec.eq_of_toInt_eq h0)
    exact (if_neg hdiv).trans (advance_of_le hend)
  case load =>
    intro a v ha hv
    have hload : exec (.load ra a) s = advance (s.setReg ra v) := by
      simp [exec, execLoad, memRead_of_lt ha, hv]
    exact hload.trans (advance_of_le hend)
  case store =>
    intro a ha
    have hstore : storeReg ra a s = .fault (.addressOutOfRange (s.pc + 1)) := by
      rw [storeReg, memWrite_of_lt _ (ha.trans_le (stackBase_le_memSize s.cfg)) ha, attempt_ok]
      exact advance_of_le hend
    exact ⟨hstore, hstore⟩
  case push =>
    intro hroom
    rw [exec, execPush, push_of_ne _ hroom, attempt_ok]
    exact advance_of_le hend
  case pop =>
    intro hocc
    rw [exec, execPop, pop_of_ne hocc, attempt_ok]
    exact advance_of_le hend
  case nop =>
    intro tag pay tv htv
    rw [exec, execNop, htv, attempt_ok]
    exact advance_of_le hend

/-! ### The registers -/

/-- Settles O22: a handler's copy differs from the state in no register but the destination. -/
theorem registersChangeOnlyInTheDestination : Obligations.RegistersChangeOnlyInTheDestination := by
  intro i s t q h hq
  obtain ⟨ra, -, rfl⟩ | ⟨-, rfl⟩ | ⟨u, n, hu, -, rfl⟩ := exec_next_cases h
  · rfl
  · rfl
  · exact hu.reg_eq hq

/-! ### The flags -/

/-- The flags of `g` where `w` is true, and those of `f` elsewhere. -/
def mergeFlags (w g f : Flags) : Flags where
  c := if w.c then g.c else f.c
  z := if w.z then g.z else f.z
  n := if w.n then g.n else f.n
  v := if w.v then g.v else f.v

/-- `t` with each flag that `w` does not mark taken from `f`. -/
def State.withUnwritten (w f : Flags) (t : State) : State := t.setFlags (mergeFlags w t.flags f)

theorem attempt_of_ok {α : Type} {x : Except Fault α} {a : α} {k : α → Result} {r : Result}
    (hx : x = .ok a) (hk : k a = r) : attempt x k = r := by
  rw [hx, attempt_ok, hk]

theorem setFlags_self (s : State) : s.setFlags s.flags = s := rfl

/-- With other flags, an instruction other than BEQ answers the same state, but that the flags it does
not write are those other ones: no condition and no value it computes depends on a flag. -/
theorem exec_setFlags {i : Instr} {s t : State} (hi : ∀ a, i ≠ .beq a) (h : exec i s = .next t)
    (f : Flags) : exec i (s.setFlags f) = .next (t.withUnwritten (Claims.flagsWritten i) f) := by
  cases i with
  | beq a => exact absurd rfl (hi a)
  | inp | halt =>
    injection h with h
    subst h
    rfl
  | add | sub | mul | and | or | nor | not | shl | shr | rol | ror | move | loadr | out | cmp | clr
  | jump | bne | blt | jle =>
    obtain ⟨hn, rfl⟩ := commit_next h
    exact commit_of_lt hn
  | div ra rb rc =>
    obtain ⟨hb, h⟩ := execDiv_next h
    obtain ⟨hn, rfl⟩ := advance_next h
    exact (if_neg hb).trans (advance_of_lt hn)
  | nop =>
    obtain ⟨tv, htv, h⟩ := attempt_next h
    obtain ⟨hn, rfl⟩ := advance_next h
    exact attempt_of_ok htv (advance_of_lt hn)
  | load =>
    obtain ⟨w, hw, h⟩ := attempt_next h
    obtain ⟨v, hv, h⟩ := attempt_next h
    obtain ⟨hn, rfl⟩ := advance_next h
    exact attempt_of_ok hw (attempt_of_ok hv (advance_of_lt hn))
  | store | storer =>
    obtain ⟨u, hu, h⟩ := attempt_next h
    obtain ⟨hmem, hbase, rfl⟩ := memWrite_ok hu
    obtain ⟨hn, rfl⟩ := advance_next h
    exact attempt_of_ok (memWrite_of_lt _ hmem hbase) (advance_of_lt hn)
  | push | call =>
    obtain ⟨u, hu, h⟩ := attempt_next h
    obtain ⟨hroom, rfl⟩ := push_ok hu
    obtain ⟨hn, rfl⟩ := commit_next h
    exact attempt_of_ok (push_of_ne _ hroom) (commit_of_lt hn)
  | pop | ret =>
    obtain ⟨⟨w, u⟩, hu, h⟩ := attempt_next h
    obtain ⟨hocc, rfl, rfl⟩ := pop_ok hu
    obtain ⟨hn, rfl⟩ := commit_next h
    exact attempt_of_ok (pop_of_ne hocc) (commit_of_lt hn)

/-- An instruction leaves the flags that the table of flag writers does not give it (R24). -/
theorem exec_flags_eq_mergeFlags {i : Instr} {s t : State} (h : exec i s = .next t) :
    t.flags = mergeFlags (Claims.flagsWritten i) t.flags s.flags := by
  by_cases hi : ∀ a, i ≠ .beq a
  · have hself := exec_setFlags hi h s.flags
    rw [setFlags_self, h] at hself
    injection hself with ht
    exact congrArg State.flags ht
  · push Not at hi
    obtain ⟨a, rfl⟩ := hi
    obtain ⟨-, rfl⟩ := commit_next h
    rfl

/-- Settles O20: an instruction run with the flags it already has keeps those it does not write. -/
theorem flagsChangeOnlyAsTheTableSays : Obligations.FlagsChangeOnlyAsTheTableSays := by
  intro i s t h
  have hflags := exec_flags_eq_mergeFlags h
  refine ⟨fun hw => ?_, fun hw => ?_, fun hw => ?_, fun hw => ?_⟩
  all_goals
    rw [hflags]
    simp [mergeFlags, hw]

/-- Settles O21: the answer with other flags is the same state but for the flags not written. -/
theorem onlyBeqReadsTheFlags : Obligations.OnlyBeqReadsTheFlags := by
  intro i s t f hi h
  exact ⟨_, exec_setFlags hi h f, rfl, rfl, rfl, rfl, rfl, rfl,
    fun hw => if_pos hw, fun hw => if_pos hw, fun hw => if_pos hw, fun hw => if_pos hw⟩

end Sys2Proof.Machine
end

section
/-! PROOFS. The memory: a word reads as last written (20_memory.md R52, R53), each instruction stores to
at most one word (R54, R55, R58), and the stack gives its words back in reverse order (R56, R57). -/

namespace Sys2Proof.Machine

/-! ### Read after an ordinary write -/

theorem memRead_same_of_memWrite {s t : State} {a : Nat} {v : Word} (h : s.memWrite a v = .ok t) :
    t.memRead a = .ok v := by
  obtain ⟨ha, -, rfl⟩ := memWrite_ok h
  have hinside : a < (s.setMem (memSet s.mem a v)).cfg.memSize := ha
  rw [memRead_of_lt hinside, setMem_mem, memGet_memSet_same]

theorem memRead_other_of_memWrite {s t : State} {a b : Nat} {v : Word} (h : s.memWrite a v = .ok t)
    (hb : b ≠ a) : t.memRead b = s.memRead b := by
  obtain ⟨-, -, rfl⟩ := memWrite_ok h
  simp only [State.memRead, setMem_cfg, setMem_mem, memGet_memSet_other _ _ hb]

/-- Settles O42: a write accepts exactly ordinary memory, and every read and fetch after it sees it. -/
theorem memoryWordReadsAsLastWritten : Obligations.MemoryWordReadsAsLastWritten := by
  intro s a v hbase
  refine ⟨⟨fun ha => ⟨_, memWrite_of_lt v (ha.trans_le hbase) ha⟩, ?onlyBelow⟩, fun t ht => ?reads⟩
  case onlyBelow =>
    rintro ⟨t, ht⟩
    obtain ⟨-, ha, -⟩ := memWrite_ok ht
    exact ha
  case reads =>
    have hfetch : fetch (t.setPc a) = t.memRead a := rfl
    have hsame := memRead_same_of_memWrite ht
    exact ⟨hsame, fun b hb => memRead_other_of_memWrite ht hb, hfetch.trans hsame⟩

/-! ### The one word an instruction stores to -/

/-- Everything a completed instruction can do to memory and SP: it leaves both, or it writes the one
word that the table of stores names, which lies below the stack region with SP kept unless the
instruction uses the stack. -/
theorem exec_memory_cases {i : Instr} {s t : State} (h : exec i s = .next t) :
    (t.mem = s.mem ∧ t.sp = s.sp) ∨
      ∃ a v, Claims.storesTo s i = some a ∧ t.mem = memSet s.mem a v ∧
        (Claims.usesStack i = false → a < s.cfg.stackBase ∧ t.sp = s.sp) := by
  cases i with
  | inp | halt =>
    injection h with h
    subst h
    exact .inl ⟨rfl, rfl⟩
  | add | sub | mul | and | or | nor | not | shl | shr | rol | ror | move | loadr | out | cmp | clr
  | jump | beq | bne | blt | jle =>
    obtain ⟨-, rfl⟩ := commit_next h
    exact .inl ⟨rfl, rfl⟩
  | div =>
    obtain ⟨-, h⟩ := execDiv_next h
    obtain ⟨-, rfl⟩ := advance_next h
    exact .inl ⟨rfl, rfl⟩
  | nop =>
    obtain ⟨_, -, h⟩ := attempt_next h
    obtain ⟨-, rfl⟩ := advance_next h
    exact .inl ⟨rfl, rfl⟩
  | load =>
    obtain ⟨_, -, h⟩ := attempt_next h
    obtain ⟨_, -, h⟩ := attempt_next h
    obtain ⟨-, rfl⟩ := advance_next h
    exact .inl ⟨rfl, rfl⟩
  | store | storer =>
    obtain ⟨_, hu, h⟩ := attempt_next h
    obtain ⟨-, hbase, rfl⟩ := memWrite_ok hu
    obtain ⟨-, rfl⟩ := advance_next h
    exact .inr ⟨_, _, rfl, rfl, fun _ => ⟨hbase, rfl⟩⟩
  | push | call =>
    obtain ⟨_, hu, h⟩ := attempt_next h
    obtain ⟨-, rfl⟩ := push_ok hu
    obtain ⟨-, rfl⟩ := commit_next h
    exact .inr ⟨_, _, rfl, rfl, nofun⟩
  | pop | ret =>
    obtain ⟨⟨_, _⟩, hu, h⟩ := attempt_next h
    obtain ⟨-, -, rfl⟩ := pop_ok hu
    obtain ⟨-, rfl⟩ := commit_next h
    exact .inr ⟨_, 0, rfl, rfl, nofun⟩

/-- Settles O23: only the word stored to can change, and an ordinary store ends below the region. -/
theorem memoryChangesOnlyWhereTheInstructionStores :
    Obligations.MemoryChangesOnlyWhereTheInstructionStores := by
  intro i s t h
  obtain ⟨hmem, hsp⟩ | ⟨a, v, hstore, hmem, hordinary⟩ := exec_memory_cases h
  · exact ⟨fun b _ => by rw [hmem], fun _ => ⟨hsp, fun b _ => by rw [hmem]⟩⟩
  · have hother : ∀ b, b ≠ a → memGet t.mem b = memGet s.mem b := fun b hb => by
      rw [hmem, memGet_memSet_other _ _ hb]
    refine ⟨fun b hb => hother b fun e => hb (e ▸ hstore), fun hstack => ?_⟩
    obtain ⟨ha, hsp⟩ := hordinary hstack
    exact ⟨hsp, fun b hb => hother b (ha.trans_le hb).ne'⟩

/-! ### Pushes and pops in sequence -/

theorem pushAll_cons_of_push {s t : State} {w : Word} (h : s.push w = .ok t) (ws : List Word) :
    Claims.pushAll (w :: ws) s = Claims.pushAll ws t := by
  simp only [Claims.pushAll, h]

theorem popAll_succ_ok {n : Nat} {s u : State} {ws : List Word}
    (h : Claims.popAll (n + 1) s = .ok (ws, u)) :
    ∃ w t ws', s.pop = .ok (w, t) ∧ Claims.popAll n t = .ok (ws', u) ∧ ws = w :: ws' := by
  unfold Claims.popAll at h
  split at h
  · next w t hpop =>
    split at h
    · next ws' u' hrest =>
      injection h with h
      injection h with hws hu
      exact ⟨w, t, ws', hpop, hu ▸ hrest, hws.symm⟩
    · exact nomatch h
  · exact nomatch h

/-- One more pop after `n` pops appends its word: `popAll` unfolds at its last pop too. -/
theorem popAll_succ_of_pop_last {n : Nat} {s t u : State} {ws : List Word} {w : Word}
    (h : Claims.popAll n s = .ok (ws, t)) (hlast : t.pop = .ok (w, u)) :
    Claims.popAll (n + 1) s = .ok (ws ++ [w], u) := by
  induction n generalizing s ws with
  | zero =>
    injection h with h
    injection h with hws hs
    subst hws hs
    simp [Claims.popAll, hlast]
  | succ n ih =>
    obtain ⟨v, s', ws', hpop, hrest, rfl⟩ := popAll_succ_ok h
    rw [Claims.popAll, hpop]
    simp [ih hrest]

/-- `u` has the parameters and the SP of `s`, and its memory but that the `n` slots from SP on
read 0. -/
structure SlotsCleared (n : Nat) (s u : State) : Prop where
  cfgEq : u.cfg = s.cfg
  spEq : u.sp = s.sp
  outside : ∀ a, a < s.sp ∨ s.sp + n ≤ a → memGet u.mem a = memGet s.mem a
  cleared : ∀ a, s.sp ≤ a → a < s.sp + n → memGet u.mem a = 0

theorem SlotsCleared.refl (s : State) : SlotsCleared 0 s s where
  cfgEq := rfl
  spEq := rfl
  outside _ _ := rfl
  cleared a hlow hhigh := by omega

/-- A word pushed before the cleared slots is still there: the next Pop answers it and clears its
slot. -/
theorem SlotsCleared.pop_of_push {n : Nat} {s t u : State} {w : Word} (h : SlotsCleared n t u)
    (hlow : s.cfg.stackBase ≤ s.sp) (ht : s.push w = .ok t) :
    ∃ u', u.pop = .ok (w, u') ∧ SlotsCleared (n + 1) s u' := by
  obtain ⟨-, rfl⟩ := push_ok ht
  obtain ⟨hcfg, hsp, houtside, hcleared⟩ := h
  simp only [setSp_cfg, setMem_cfg, setSp_sp, setSp_mem, setMem_mem] at hcfg hsp houtside hcleared
  have hslot : u.sp - 1 = s.sp := by omega
  have htop : memGet u.mem s.sp = w := by
    rw [houtside _ (.inl (Nat.lt_succ_self _)), memGet_memSet_same]
  have hocc : u.sp ≠ u.cfg.stackBase := by
    rw [hcfg]
    omega
  have hpop : u.pop = .ok (w, (u.setMem (memSet u.mem s.sp 0)).setSp s.sp) := by
    rw [pop_of_ne hocc, hslot, htop]
  refine ⟨_, hpop, hcfg, rfl, fun a ha => ?_, fun a ha hlt => ?_⟩
  · have hne : a ≠ s.sp := by omega
    calc memGet (memSet u.mem s.sp 0) a
      _ = memGet u.mem a := memGet_memSet_other _ _ hne
      _ = memGet (memSet s.mem s.sp w) a := houtside a (by omega)
      _ = memGet s.mem a := memGet_memSet_other _ _ hne
  · rw [setSp_mem, setMem_mem, memGet_memSet]
    split
    · rfl
    · exact hcleared a (by omega) (by omega)

/-- The pushes of `ws` undone by as many pops. The pops of the words after the first leave the slot
of the first one as its push left it, so the last pop answers it. -/
theorem popAll_pushAll (ws : List Word) (s : State) (hlow : s.cfg.stackBase ≤ s.sp)
    (hfit : s.sp + ws.length ≤ s.cfg.memSize) :
    ∃ t u, Claims.pushAll ws s = .ok t ∧ t.sp = s.sp + ws.length ∧
      Claims.popAll ws.length t = .ok (ws.reverse, u) ∧ SlotsCleared ws.length s u := by
  induction ws generalizing s with
  | nil => exact ⟨s, s, rfl, rfl, rfl, .refl s⟩
  | cons w ws ih =>
    rw [List.length_cons] at hfit ⊢
    have hroom : s.sp ≠ s.cfg.memSize := by omega
    have hpush := push_of_ne w hroom
    obtain ⟨t, u, hpushes, hsp, hpops, hslots⟩ :=
      ih ((s.setMem (memSet s.mem s.sp w)).setSp (s.sp + 1)) (Nat.le_succ_of_le hlow)
        (by rw [setSp_sp, setSp_cfg, setMem_cfg]; omega)
    obtain ⟨u', hlast, hslots'⟩ := hslots.pop_of_push hlow hpush
    refine ⟨t, u', (pushAll_cons_of_push hpush ws).trans hpushes, ?_, ?_, hslots'⟩
    · rw [hsp, setSp_sp]
      omega
    · rw [List.reverse_cons]
      exact popAll_succ_of_pop_last hpops hlast

/-- Settles O48: the slots are cleared, and nothing else that the statement names has changed. -/
theorem poppedWordsComeInReverseOrder : Obligations.PoppedWordsComeInReverseOrder := by
  intro ws s hlow hfit
  obtain ⟨t, u, hpushes, hsp, hpops, hslots⟩ := popAll_pushAll ws s hlow hfit
  exact ⟨t, u, hpushes, hsp, hpops, hslots.spEq, hslots.outside, hslots.cleared⟩

end Sys2Proof.Machine
end

section
/-! PROOFS. The instruction encoding (30_encoding.md R80 to R96): each decoder output is a slice of the
word, an operand area packed by the encoder is read back field by field, and the fields the decoder
reads fill the area again but for the unused bits. -/

namespace Sys2Proof

/-! ### Slices of a word (00_scope.md R8) -/

theorem slice_lt (w : Word) (hi lo : Nat) : slice w hi lo < 2 ^ (hi + 1 - lo) :=
  Nat.mod_lt _ (Nat.two_pow_pos _)

theorem slice_testBit (w : Word) (hi lo k : Nat) :
    (slice w hi lo).testBit k = (decide (k < hi + 1 - lo) && w.getLsbD (lo + k)) := by
  rw [slice, Nat.testBit_mod_two_pow, Nat.testBit_div_two_pow, Nat.add_comm k lo, BitVec.getLsbD]

theorem slice_opcode (w : Word) : slice w 31 27 = w.toNat / 2 ^ 27 :=
  Nat.mod_eq_of_lt (Nat.div_lt_of_lt_mul w.isLt)

/-! ### The decoder's outputs (R83) -/

theorem fieldsOf_op_number (w : Word) : (fieldsOf w).op.number = slice w 31 27 :=
  Opcode.number_ofNumber (slice_lt w 31 27)

theorem fieldsOf_ra_number (w : Word) : (fieldsOf w).ra.number = slice w 26 25 :=
  Reg.number_ofNumber (slice_lt w 26 25)

theorem fieldsOf_rb_number (w : Word) : (fieldsOf w).rb.number = slice w 24 23 :=
  Reg.number_ofNumber (slice_lt w 24 23)

theorem fieldsOf_rc_number (w : Word) : (fieldsOf w).rc.number = slice w 22 21 :=
  Reg.number_ofNumber (slice_lt w 22 21)

theorem fieldsOf_tag_toNat (w : Word) : (fieldsOf w).tag.toNat = slice w 26 21 :=
  Nat.mod_eq_of_lt (slice_lt w 26 21)

theorem fieldsOf_pay_toNat (w : Word) : (fieldsOf w).pay.toNat = slice w 20 0 :=
  Nat.mod_eq_of_lt (slice_lt w 20 0)

theorem fieldsOf_a27 (w : Word) : (fieldsOf w).a27 = slice w 26 0 := rfl
theorem fieldsOf_a25 (w : Word) : (fieldsOf w).a25 = slice w 24 0 := rfl
theorem fieldsOf_a23 (w : Word) : (fieldsOf w).a23 = slice w 22 0 := rfl

/-- Settles O4: each output is a slice of the word, and a slice holds the bits it names. -/
theorem decoderFieldsHoldTheirBits : Obligations.DecoderFieldsHoldTheirBits := by
  intro w
  have hlow (hi k : Nat) : (slice w hi 0).testBit k = (decide (k < hi + 1) && w.getLsbD k) := by
    rw [slice_testBit, Nat.sub_zero, Nat.zero_add]
  refine ⟨fun k => ?op, fun k => ?ra, fun k => ?rb, fun k => ?rc, hlow 26, hlow 24, hlow 22,
    fun k => ?tag, fun k => ?pay⟩
  case op => rw [fieldsOf_op_number]; exact slice_testBit w 31 27 k
  case ra => rw [fieldsOf_ra_number]; exact slice_testBit w 26 25 k
  case rb => rw [fieldsOf_rb_number]; exact slice_testBit w 24 23 k
  case rc => rw [fieldsOf_rc_number]; exact slice_testBit w 22 21 k
  case tag => rw [BitVec.getLsbD, fieldsOf_tag_toNat]; exact slice_testBit w 26 21 k
  case pay => rw [BitVec.getLsbD, fieldsOf_pay_toNat]; exact hlow 20 k

/-! ### The opcode map (R95) -/

theorem decode_of_op {w : Word} {op : Opcode} (h : (fieldsOf w).op = op) :
    decode w = { fieldsOf w with op := op }.instr := by
  subst h
  rfl

theorem decode_of_top {w : Word} {n : Nat} (h : w.toNat / 2 ^ 27 = n) :
    decode w = { fieldsOf w with op := Opcode.ofNumber n }.instr :=
  decode_of_op (by rw [fieldsOf, slice_opcode, h])

theorem opcodeOf_instr (f : Fields) : Laws.opcodeOf f.instr = f.op := by
  obtain ⟨op⟩ := f
  cases op <;> rfl

theorem encode_opcode (i : Instr) : slice (encode i) 31 27 = (Laws.opcodeOf i).number := by
  cases i <;> exact Laws.pack_opcode _ _

/-- Settles O5: the opcode number selects the row of `Fields.instr`, and its opcode is packed again. -/
theorem opcodeMapChoosesInstructionAndFields : Obligations.OpcodeMapChoosesInstructionAndFields := by
  intro w
  have htop : (encode (decode w)).toNat / 2 ^ 27 = w.toNat / 2 ^ 27 := by
    rw [← slice_opcode, encode_opcode, decode, opcodeOf_instr, fieldsOf_op_number, slice_opcode]
  and_intros
  on_goal 33 => exact htop
  all_goals exact decode_of_top

/-! ### Well-formed operands (R85, R96) -/

theorem instr_wellFormed {f : Fields} (h27 : f.a27 < 2 ^ 27) (h25 : f.a25 < 2 ^ 25)
    (h23 : f.a23 < 2 ^ 23) : f.instr.wellFormed = true := by
  obtain ⟨op⟩ := f
  cases op with
  | jump | beq | call => exact decide_eq_true h27
  | load | store | storer => exact decide_eq_true h25
  | bne | blt | jle => exact decide_eq_true h23
  | _ => rfl

/-- Settles O3: each address operand is a slice as wide as its field. -/
theorem decodedInstructionsAreWellFormed : Obligations.DecodedInstructionsAreWellFormed :=
  fun w => instr_wellFormed (slice_lt w 26 0) (slice_lt w 24 0) (slice_lt w 22 0)

/-! ### Reading back a packed operand area, one lemma per format (R86) -/

theorem Reg.ofNumber_of_eq {n : Nat} {r : Reg} (h : n = r.number) : Reg.ofNumber n = r := by
  rw [h, Reg.ofNumber_number]

theorem decode_pack_areaIMM (op : Opcode) (tag : BitVec 6) (pay : BitVec 21) :
    decode (pack op (areaIMM tag pay)) =
      { fieldsOf (pack op (areaIMM tag pay)) with op := op, tag := tag, pay := pay }.instr := by
  have := pay.isLt
  have hlt : areaIMM tag pay < 2 ^ 27 := by rw [areaIMM]; omega
  have htag : BitVec.ofNat 6 (areaIMM tag pay / 2 ^ 21) = tag :=
    BitVec.eq_of_toNat_eq (by rw [BitVec.toNat_ofNat, areaIMM]; omega)
  have hpay : BitVec.ofNat 21 (areaIMM tag pay % 2 ^ 21) = pay :=
    BitVec.eq_of_toNat_eq (by rw [BitVec.toNat_ofNat, areaIMM]; omega)
  rw [decode, fieldsOf_pack op hlt, htag, hpay]

theorem decode_pack_areaRA25 (op : Opcode) (ra : Reg) {a25 : Nat} (h : a25 < 2 ^ 25) :
    decode (pack op (areaRA25 ra a25)) =
      { fieldsOf (pack op (areaRA25 ra a25)) with op := op, ra := ra, a25 := a25 }.instr := by
  have := ra.number_lt
  have hlt : areaRA25 ra a25 < 2 ^ 27 := by rw [areaRA25]; omega
  have hra : Reg.ofNumber (areaRA25 ra a25 / 2 ^ 25) = ra :=
    Reg.ofNumber_of_eq (by rw [areaRA25]; omega)
  have ha25 : areaRA25 ra a25 % 2 ^ 25 = a25 := by rw [areaRA25]; omega
  rw [decode, fieldsOf_pack op hlt, hra, ha25]

theorem decode_pack_areaRR (op : Opcode) (ra rb : Reg) :
    decode (pack op (areaRR ra rb)) =
      { fieldsOf (pack op (areaRR ra rb)) with op := op, ra := ra, rb := rb }.instr := by
  have := ra.number_lt
  have := rb.number_lt
  have hlt : areaRR ra rb < 2 ^ 27 := by rw [areaRR]; omega
  have hra : Reg.ofNumber (areaRR ra rb / 2 ^ 25) = ra :=
    Reg.ofNumber_of_eq (by rw [areaRR]; omega)
  have hrb : Reg.ofNumber (areaRR ra rb / 2 ^ 23 % 4) = rb :=
    Reg.ofNumber_of_eq (by rw [areaRR]; omega)
  rw [decode, fieldsOf_pack op hlt, hra, hrb]

theorem decode_pack_areaRRR (op : Opcode) (ra rb rc : Reg) :
    decode (pack op (areaRRR ra rb rc)) =
      { fieldsOf (pack op (areaRRR ra rb rc)) with op := op, ra := ra, rb := rb, rc := rc }.instr := by
  have := ra.number_lt
  have := rb.number_lt
  have := rc.number_lt
  have hlt : areaRRR ra rb rc < 2 ^ 27 := by rw [areaRRR]; omega
  have hra : Reg.ofNumber (areaRRR ra rb rc / 2 ^ 25) = ra :=
    Reg.ofNumber_of_eq (by rw [areaRRR]; omega)
  have hrb : Reg.ofNumber (areaRRR ra rb rc / 2 ^ 23 % 4) = rb :=
    Reg.ofNumber_of_eq (by rw [areaRRR]; omega)
  have hrc : Reg.ofNumber (areaRRR ra rb rc / 2 ^ 21 % 4) = rc :=
    Reg.ofNumber_of_eq (by rw [areaRRR]; omega)
  rw [decode, fieldsOf_pack op hlt, hra, hrb, hrc]

theorem decode_pack_areaR (op : Opcode) (ra : Reg) :
    decode (pack op (areaR ra)) = { fieldsOf (pack op (areaR ra)) with op := op, ra := ra }.instr := by
  have := ra.number_lt
  have hlt : areaR ra < 2 ^ 27 := by rw [areaR]; omega
  have hra : Reg.ofNumber (areaR ra / 2 ^ 25) = ra := Reg.ofNumber_of_eq (by rw [areaR]; omega)
  rw [decode, fieldsOf_pack op hlt, hra]

theorem decode_pack_a27 (op : Opcode) {a27 : Nat} (h : a27 < 2 ^ 27) :
    decode (pack op a27) = { fieldsOf (pack op a27) with op := op, a27 := a27 }.instr := by
  rw [decode, fieldsOf_pack op h]

theorem decode_pack_areaRRA23 (op : Opcode) (ra rb : Reg) {a23 : Nat} (h : a23 < 2 ^ 23) :
    decode (pack op (areaRRA23 ra rb a23)) =
      { fieldsOf (pack op (areaRRA23 ra rb a23)) with
        op := op, ra := ra, rb := rb, a23 := a23 }.instr := by
  have := ra.number_lt
  have := rb.number_lt
  have hlt : areaRRA23 ra rb a23 < 2 ^ 27 := by rw [areaRRA23]; omega
  have hra : Reg.ofNumber (areaRRA23 ra rb a23 / 2 ^ 25) = ra :=
    Reg.ofNumber_of_eq (by rw [areaRRA23]; omega)
  have hrb : Reg.ofNumber (areaRRA23 ra rb a23 / 2 ^ 23 % 4) = rb :=
    Reg.ofNumber_of_eq (by rw [areaRRA23]; omega)
  have ha23 : areaRRA23 ra rb a23 % 2 ^ 23 = a23 := by rw [areaRRA23]; omega
  rw [decode, fieldsOf_pack op hlt, hra, hrb, ha23]

/-- Settles O1: one reading lemma for each format of the word. -/
theorem decodeOfEncodeIsTheInstruction : Obligations.DecodeOfEncodeIsTheInstruction := by
  intro i hi
  cases i with
  | nop tag pay => exact decode_pack_areaIMM _ tag pay
  | load ra a25 | store ra a25 | storer ra a25 => exact decode_pack_areaRA25 _ ra (of_decide_eq_true hi)
  | move ra rb | shl ra rb | shr ra rb | rol ra rb | ror ra rb | cmp ra rb | loadr ra rb =>
    exact decode_pack_areaRR _ ra rb
  | add ra rb rc | sub ra rb rc | mul ra rb rc | div ra rb rc | and ra rb rc | or ra rb rc
  | nor ra rb rc => exact decode_pack_areaRRR _ ra rb rc
  | not ra | push ra | pop ra | inp ra | out ra | clr ra => exact decode_pack_areaR _ ra
  | jump a27 | beq a27 | call a27 => exact decode_pack_a27 _ (of_decide_eq_true hi)
  | bne ra rb a23 | blt ra rb a23 | jle ra rb a23 =>
    exact decode_pack_areaRRA23 _ ra rb (of_decide_eq_true hi)
  | ret | halt => exact decode_pack_a27 _ (Nat.two_pow_pos 27)

/-- Settles O6, by evaluation of the six rows of the table of worked encodings. -/
theorem workedEncodingsDecodeAndEncode : Obligations.WorkedEncodingsDecodeAndEncode := by
  unfold Obligations.WorkedEncodingsDecodeAndEncode
  decide

/-! ### Packing the decoder's outputs again, one lemma per format (R86, R87)

Together with the word's unused low bits, the packed area is all of its 27 low bits. -/

theorem areaIMM_fieldsOf (w : Word) :
    areaIMM (fieldsOf w).tag (fieldsOf w).pay + w.toNat % 2 ^ 0 = w.toNat % 2 ^ 27 := by
  rw [areaIMM, fieldsOf_tag_toNat, fieldsOf_pay_toNat]
  unfold slice
  omega

theorem areaRA25_fieldsOf (w : Word) :
    areaRA25 (fieldsOf w).ra (fieldsOf w).a25 + w.toNat % 2 ^ 0 = w.toNat % 2 ^ 27 := by
  rw [areaRA25, fieldsOf_ra_number, fieldsOf_a25]
  unfold slice
  omega

theorem areaRR_fieldsOf (w : Word) :
    areaRR (fieldsOf w).ra (fieldsOf w).rb + w.toNat % 2 ^ 23 = w.toNat % 2 ^ 27 := by
  rw [areaRR, fieldsOf_ra_number, fieldsOf_rb_number]
  unfold slice
  omega

theorem areaRRR_fieldsOf (w : Word) :
    areaRRR (fieldsOf w).ra (fieldsOf w).rb (fieldsOf w).rc + w.toNat % 2 ^ 21 =
      w.toNat % 2 ^ 27 := by
  rw [areaRRR, fieldsOf_ra_number, fieldsOf_rb_number, fieldsOf_rc_number]
  unfold slice
  omega

theorem areaR_fieldsOf (w : Word) :
    areaR (fieldsOf w).ra + w.toNat % 2 ^ 25 = w.toNat % 2 ^ 27 := by
  rw [areaR, fieldsOf_ra_number]
  unfold slice
  omega

theorem a27_fieldsOf (w : Word) : (fieldsOf w).a27 + w.toNat % 2 ^ 0 = w.toNat % 2 ^ 27 := by
  rw [fieldsOf_a27]
  unfold slice
  omega

theorem areaRRA23_fieldsOf (w : Word) :
    areaRRA23 (fieldsOf w).ra (fieldsOf w).rb (fieldsOf w).a23 + w.toNat % 2 ^ 0 =
      w.toNat % 2 ^ 27 := by
  rw [areaRRA23, fieldsOf_ra_number, fieldsOf_rb_number, fieldsOf_a23]
  unfold slice
  omega

theorem pack_eq_clearUnused {w : Word} {op : Opcode} {area : Nat} (hop : (fieldsOf w).op = op)
    (harea : area + w.toNat % 2 ^ Claims.unusedBits op.number = w.toNat % 2 ^ 27) :
    pack op area = Claims.clearUnused w := by
  have hnum : op.number = w.toNat / 2 ^ 27 := by rw [← hop, fieldsOf_op_number, slice_opcode]
  rw [hnum] at harea
  have hdiv := Nat.div_add_mod' w.toNat (2 ^ Claims.unusedBits (w.toNat / 2 ^ 27))
  rw [pack, Claims.clearUnused, hnum]
  congr 1
  omega

theorem encode_decode (w : Word) : encode (decode w) = Claims.clearUnused w := by
  cases hop : (fieldsOf w).op with rw [decode_of_op hop]
  | nop => exact pack_eq_clearUnused hop (areaIMM_fieldsOf w)
  | load | store | storer => exact pack_eq_clearUnused hop (areaRA25_fieldsOf w)
  | move | shl | shr | rol | ror | cmp | loadr => exact pack_eq_clearUnused hop (areaRR_fieldsOf w)
  | add | sub | mul | div | and | or | nor => exact pack_eq_clearUnused hop (areaRRR_fieldsOf w)
  | not | push | pop | inp | out | clr => exact pack_eq_clearUnused hop (areaR_fieldsOf w)
  | jump | beq | call => exact pack_eq_clearUnused hop (a27_fieldsOf w)
  | bne | blt | jle => exact pack_eq_clearUnused hop (areaRRA23_fieldsOf w)
  | ret | halt => exact pack_eq_clearUnused hop (Nat.zero_add _)

theorem decode_clearUnused (w : Word) : decode (Claims.clearUnused w) = decode w := by
  rw [← encode_decode]
  exact decodeOfEncodeIsTheInstruction _ (decodedInstructionsAreWellFormed w)

end Sys2Proof

namespace Sys2Proof.Machine

theorem step_of_running {s : State} (hrun : s.run = .running) (hpc : s.pc < s.cfg.memSize) :
    step s = exec (decode (memGet s.mem s.pc)) s := by
  simp only [step, hrun, fetch, memRead_of_lt hpc, attempt_ok]

/-- Settles O2: the cleared word is the word of the decoded instruction, which decodes to it again. -/
theorem unusedBitsAreIgnoredAndEncodedAsZero : Obligations.UnusedBitsAreIgnoredAndEncodedAsZero := by
  intro w
  refine ⟨(decode_clearUnused w).symm, encode_decode w, fun s hrun hpc hw => ?_⟩
  rw [decode_clearUnused, ← hw]
  exact step_of_running hrun hpc

end Sys2Proof.Machine
end

section
/-! PROOFS. Typed values (30_encoding.md R88 to R94): what `DecodeTyped` answers for each tag, the
values LOAD and NOP make of it (43_data_movement.md R180, 45_compare_misc.md R222), the round trip of
the encoding (R92) and the binary32 value of a Float payload (R91). -/

namespace Sys2Proof.Machine

/-! ### `DecodeTyped`, one lemma per row of R90 -/

theorem toInt_eq_signed21 (pay : BitVec 21) : pay.toInt = Claims.signed21 pay.toNat := by
  rw [BitVec.toInt_eq_toNat_cond, Claims.signed21]
  split <;> split <;> omega

theorem decodeTyped_boolean (pay : BitVec 21) :
    decodeTyped 1 pay = .ok (.boolean (decide (pay.toNat ≠ 0))) := by
  have hzero : pay ≠ 0 ↔ pay.toNat ≠ 0 := not_congr BitVec.toNat_inj.symm
  rw [← decide_eq_decide.mpr hzero]
  rfl

theorem decodeTyped_natural (pay : BitVec 21) : decodeTyped 2 pay = .ok (.natural pay.toNat) := rfl

theorem decodeTyped_integer (pay : BitVec 21) :
    decodeTyped 3 pay = .ok (.integer (Claims.signed21 pay.toNat)) := by
  rw [← toInt_eq_signed21]
  rfl

theorem decodeTyped_float (pay : BitVec 21) : decodeTyped 4 pay = .ok (.float pay) := rfl

theorem decodeTyped_char {pay : BitVec 21} (h : pay.toNat ≤ 0x10FFFF) :
    decodeTyped 5 pay = .ok (.char pay.toNat) :=
  if_neg (Nat.not_lt.mpr h)

theorem decodeTyped_char_outside {pay : BitVec 21} (h : 0x10FFFF < pay.toNat) :
    decodeTyped 5 pay = .error (.invalidEncoding 5 pay) :=
  if_pos h

theorem decodeTyped_reserved {tag : BitVec 6} (pay : BitVec 21)
    (h : tag.toNat = 0 ∨ 6 ≤ tag.toNat) :
    decodeTyped tag pay = .error (.invalidEncoding tag pay) := by
  unfold decodeTyped
  split
  case h_6 => rfl
  all_goals omega

/-! ### The round trip of the encoding (R92) -/

theorem decodeTyped_of_encodeTyped {tv : TypedValue} {tag : BitVec 6} {pay : BitVec 21}
    (h : encodeTyped tv = some (tag, pay)) : decodeTyped tag pay = .ok tv := by
  cases tv with
  | boolean b =>
    obtain ⟨rfl, rfl⟩ := h
    cases b <;> rfl
  | natural n =>
    obtain ⟨hn, ⟨rfl, rfl⟩⟩ := Option.ite_none_right_eq_some.mp h
    rw [decodeTyped_natural, BitVec.toNat_ofNat, Nat.mod_eq_of_lt hn]
  | integer i =>
    obtain ⟨⟨hlow, hhigh⟩, ⟨rfl, rfl⟩⟩ := Option.ite_none_right_eq_some.mp h
    rw [decodeTyped_integer, ← toInt_eq_signed21, BitVec.toInt_ofInt_eq_self (by decide) hlow hhigh]
  | float p =>
    obtain ⟨rfl, rfl⟩ := h
    rfl
  | char c =>
    obtain ⟨hc, ⟨rfl, rfl⟩⟩ := Option.ite_none_right_eq_some.mp h
    have hpay : (BitVec.ofNat 21 c).toNat = c := Nat.mod_eq_of_lt (by omega)
    rw [decodeTyped_char (hpay.trans_le hc), hpay]

/-- Settles O52: each type's encoding is undone by its row of R90, on the domain its guard tests. -/
theorem typedValuesDecodeToWhatWasEncoded : Obligations.TypedValuesDecodeToWhatWasEncoded := by
  refine fun tv => ⟨fun _ _ => decodeTyped_of_encodeTyped, ?_⟩
  cases tv with
  | boolean | float | natural | char => simp [encodeTyped]
  | integer i =>
    have hguard : ¬ (-2 ^ 20 ≤ i ∧ i < 2 ^ 20) ↔ i < -2 ^ 20 ∨ 2 ^ 20 ≤ i := by omega
    simp only [encodeTyped, ite_eq_right_iff, reduceCtorEq, imp_false, hguard]
    simp

/-! ### NOP (45_compare_misc.md R222) -/

theorem emits_of_decodeTyped {tag : BitVec 6} {pay : BitVec 21} {tv : TypedValue} {s : State}
    (hpc : s.pc + 1 < s.cfg.memSize) (h : decodeTyped tag pay = .ok tv) :
    Claims.Emits tag pay tv s :=
  ⟨_, attempt_of_ok h (advance_of_lt hpc), rfl, fun _ => rfl, rfl, rfl, fun _ => rfl, rfl, rfl, rfl, rfl⟩

theorem exec_nop_fault {tag : BitVec 6} {pay : BitVec 21} {e : Fault} (s : State)
    (h : decodeTyped tag pay = .error e) : exec (.nop tag pay) s = .fault e := by
  rw [exec, execNop, h, attempt_error]

/-- Settles O51: NOP emits what `DecodeTyped` answers, row by row, or reports its error. -/
theorem nopEmitsItsTypedLiteral : Obligations.NopEmitsItsTypedLiteral := by
  intro tag pay s
  refine ⟨fun hpc => ⟨?boolean, ?natural, ?integer, ?float, ?char⟩, ?invalid⟩
  case boolean => rintro rfl; exact emits_of_decodeTyped hpc (decodeTyped_boolean pay)
  case natural => rintro rfl; exact emits_of_decodeTyped hpc (decodeTyped_natural pay)
  case integer => rintro rfl; exact emits_of_decodeTyped hpc (decodeTyped_integer pay)
  case float => rintro rfl; exact emits_of_decodeTyped hpc (decodeTyped_float pay)
  case char => rintro rfl hle; exact emits_of_decodeTyped hpc (decodeTyped_char hle)
  case invalid =>
    rintro (hzero | hlarge | ⟨rfl, hlt⟩)
    · exact exec_nop_fault s (decodeTyped_reserved pay (.inl hzero))
    · exact exec_nop_fault s (decodeTyped_reserved pay (.inr hlarge))
    · exact exec_nop_fault s (decodeTyped_char_outside hlt)

/-! ### LOAD (43_data_movement.md R180) -/

/-- The five opcode bits and the tag, read as one number, are a literal's tag exactly at a literal. -/
theorem isLiteral_iff (w : Word) :
    isLiteral w = true ↔ 1 ≤ w.toNat / 2 ^ 21 ∧ w.toNat / 2 ^ 21 ≤ 5 := by
  simp only [isLiteral, Bool.and_eq_true, decide_eq_true_iff]
  rw [slice_opcode, slice]
  omega

theorem loadValue_of_raw {w : Word} (h : w.toNat / 2 ^ 21 = 0 ∨ 6 ≤ w.toNat / 2 ^ 21) :
    loadValue w = .ok (BitVec.ofNat 16 w.toNat) := by
  have hraw : ¬ isLiteral w = true := by
    rw [isLiteral_iff]
    omega
  rw [loadValue, if_neg hraw]
  rfl

/-- A literal is converted from what `DecodeTyped` answers for its tag and payload. -/
theorem loadValue_of_literal {w : Word} {tag : BitVec 6} {pay : BitVec 21} {r : Except Fault TypedValue}
    (htag : w.toNat / 2 ^ 21 = tag.toNat) (hpay : w.toNat % 2 ^ 21 = pay.toNat)
    (hlow : 1 ≤ tag.toNat) (hhigh : tag.toNat ≤ 5) (hr : decodeTyped tag pay = r) :
    loadValue w = r.bind toRegister := by
  have hlit : isLiteral w = true := (isLiteral_iff w).mpr (by omega)
  have htag : (fieldsOf w).tag = tag := by
    refine BitVec.eq_of_toNat_eq ?_
    rw [fieldsOf_tag_toNat, slice]
    omega
  have hpay : (fieldsOf w).pay = pay := by
    refine BitVec.eq_of_toNat_eq ?_
    rw [fieldsOf_pay_toNat, slice]
    omega
  rw [loadValue, if_pos hlit, htag, hpay, hr]
  cases r <;> rfl

theorem toRegister_boolean (n : Nat) :
    toRegister (.boolean (decide (n ≠ 0))) = .ok (if n = 0 then 0 else 1) := by
  by_cases hn : n = 0 <;> simp [toRegister, hn]

theorem toRegister_natural (n : Nat) : toRegister (.natural n) = .ok (BitVec.ofNat 16 n) :=
  congrArg Except.ok (BitVec.ofInt_natCast 16 n)

theorem toRegister_char (c : Nat) : toRegister (.char c) = .ok (BitVec.ofNat 16 c) :=
  congrArg Except.ok (BitVec.ofInt_natCast 16 c)

theorem loads_of_loadValue {ra : Reg} {a : Nat} {v : Half} {s : State} (ha : a < s.cfg.memSize)
    (hpc : s.pc + 1 < s.cfg.memSize) (h : loadValue (memGet s.mem a) = .ok v) :
    Claims.Loads ra a v s :=
  ⟨_, attempt_of_ok (memRead_of_lt ha) (attempt_of_ok h (advance_of_lt hpc)),
    setReg_reg_same s ra v, fun _ hq => setReg_reg_other s v hq, rfl, rfl,
    fun _ => rfl, rfl, rfl, rfl, rfl, rfl⟩

theorem exec_load_fault {a : Nat} {e : Fault} {s : State} (ra : Reg) (ha : a < s.cfg.memSize)
    (h : loadValue (memGet s.mem a) = .error e) : exec (.load ra a) s = .fault e := by
  rw [exec, execLoad, memRead_of_lt ha, attempt_ok, h, attempt_error]

/-- Settles O38: a raw word keeps its low half, and a literal is `ToRegister` of its row of R90. -/
theorem loadReadsRawWordsAndLiterals : Obligations.LoadReadsRawWordsAndLiterals := by
  intro ra a s
  refine ⟨fun ha => ?outside, fun ha hpc => ?_⟩
  case outside => rw [exec, execLoad, memRead_of_le ha, attempt_error]
  intro w tag pay
  obtain ⟨p, hp⟩ : ∃ p : BitVec 21, pay = p.toNat :=
    ⟨BitVec.ofNat 21 pay, (Nat.mod_eq_of_lt (Nat.mod_lt _ (Nat.two_pow_pos 21))).symm⟩
  have hofNat : BitVec.ofNat 21 p.toNat = p := (BitVec.ofNat_toNat 21 p).trans (BitVec.setWidth_eq p)
  simp only [hp, hofNat]
  refine ⟨fun htag => ?raw, fun htag => ?boolean, fun htag => ?natural, fun htag => ?integer,
    fun htag => ?float, fun htag hle => ?char, fun htag hlt => ?charOutside⟩
  case raw => exact loads_of_loadValue ha hpc (loadValue_of_raw htag)
  case boolean =>
    have hv := loadValue_of_literal htag hp (by decide) (by decide) (decodeTyped_boolean p)
    exact loads_of_loadValue ha hpc (hv.trans (toRegister_boolean _))
  case natural =>
    have hv := loadValue_of_literal htag hp (by decide) (by decide) (decodeTyped_natural p)
    exact loads_of_loadValue ha hpc (hv.trans (toRegister_natural _))
  case integer =>
    have hv := loadValue_of_literal htag hp (by decide) (by decide) (decodeTyped_integer p)
    exact loads_of_loadValue ha hpc hv
  case float =>
    have hv := loadValue_of_literal htag hp (by decide) (by decide) (decodeTyped_float p)
    exact exec_load_fault ra ha hv
  case char =>
    have hv := loadValue_of_literal htag hp (by decide) (by decide) (decodeTyped_char hle)
    exact loads_of_loadValue ha hpc (hv.trans (toRegister_char _))
  case charOutside =>
    have hv := loadValue_of_literal htag hp (by decide) (by decide) (decodeTyped_char_outside hlt)
    exact exec_load_fault ra ha hv

/-! ### The value of a Float payload (R91) -/

theorem floatWord_toNat (pay : BitVec 21) : (floatWord pay).toNat = pay.toNat * 2 ^ 11 :=
  Nat.mod_eq_of_lt (Nat.mul_lt_mul_of_pos_right pay.isLt (Nat.two_pow_pos 11))

theorem slice_floatWord_sign (pay : BitVec 21) : slice (floatWord pay) 31 31 = pay.toNat / 2 ^ 20 := by
  have := pay.isLt
  rw [slice, floatWord_toNat]
  omega

theorem slice_floatWord_exponent (pay : BitVec 21) :
    slice (floatWord pay) 30 23 = pay.toNat / 2 ^ 12 % 2 ^ 8 := by
  rw [slice, floatWord_toNat]
  omega

theorem slice_floatWord_mantissa (pay : BitVec 21) :
    slice (floatWord pay) 22 0 = pay.toNat % 2 ^ 12 * 2 ^ 11 := by
  rw [slice, floatWord_toNat]
  omega

theorem floatPayload_floatWord (pay : BitVec 21) : floatPayload (floatWord pay) = pay := by
  refine BitVec.eq_of_toNat_eq ?_
  rw [floatPayload, BitVec.toNat_ofNat, slice, floatWord_toNat]
  omega

/-- The binary32 rules, on the sign, exponent and mantissa of the payload. -/
theorem floatValue_eq (pay : BitVec 21) :
    floatValue pay =
      if pay.toNat / 2 ^ 12 % 2 ^ 8 = 255 then
        if pay.toNat % 2 ^ 12 = 0 then .infinity (decide (2 ^ 20 ≤ pay.toNat)) else .nan
      else if pay.toNat / 2 ^ 12 % 2 ^ 8 = 0 then
        .finite (decide (2 ^ 20 ≤ pay.toNat)) (pay.toNat % 2 ^ 12 * 2 ^ 11) (-149)
      else
        .finite (decide (2 ^ 20 ≤ pay.toNat)) ((2 ^ 12 + pay.toNat % 2 ^ 12) * 2 ^ 11)
          (((pay.toNat / 2 ^ 12 % 2 ^ 8 : Nat) : Int) - 150) := by
  have hneg : decide (pay.toNat / 2 ^ 20 = 1) = decide (2 ^ 20 ≤ pay.toNat) :=
    decide_eq_decide.mpr (by have := pay.isLt; omega)
  have hman : pay.toNat % 2 ^ 12 * 2 ^ 11 = 0 ↔ pay.toNat % 2 ^ 12 = 0 := by omega
  have hsig : 2 ^ 23 + pay.toNat % 2 ^ 12 * 2 ^ 11 = (2 ^ 12 + pay.toNat % 2 ^ 12) * 2 ^ 11 := by omega
  simp only [floatValue, slice_floatWord_sign, slice_floatWord_exponent, slice_floatWord_mantissa,
    hneg, hman, hsig]

/-- Settles O53: the clauses are the branches of the binary32 rules. -/
theorem floatPayloadsHaveTheirBinary32Value : Obligations.FloatPayloadsHaveTheirBinary32Value := by
  intro pay neg e m
  refine ⟨fun he hm => ?infinity, fun he hm => ?nan, fun he => ?subnormal, fun he0 he255 => ?normal,
    floatPayload_floatWord pay⟩
  case infinity => rw [floatValue_eq, if_pos he, if_pos hm]
  case nan => rw [floatValue_eq, if_pos he, if_neg hm]
  case subnormal => rw [floatValue_eq, if_neg (he.trans_ne (by decide)), if_pos he]; rfl
  case normal =>
    rw [floatValue_eq, if_neg he255, if_neg he0]
    congr 1
    omega

end Sys2Proof.Machine
end

section
/-! PROOFS. The Step as the engine's rules state it (40_engine.md R110 to R112, R115, R118): which
instruction it runs, the run state it leaves, and the events it emits. -/

namespace Sys2Proof.Machine

/-! ### The instruction a Step runs -/

/-- Settles O7: the fetch at a pc inside memory succeeds, and the Step is the handler of its word. -/
theorem stepRunsTheDecodedInstruction : Obligations.StepRunsTheDecodedInstruction := by
  rintro i s hrun hpc rfl
  exact step_of_running hrun hpc

theorem step_of_not_running {s : State} (h : s.run ≠ .running) :
    step s = .refused (.notRunning s.run) := by
  cases hrun : s.run with
  | running => exact absurd hrun h
  | awaitingInput | halted => simp only [step, hrun]

/-! ### The run state after an instruction -/

theorem exec_inp_run {ra : Reg} {s t : State} (h : exec (.inp ra) s = .next t) :
    t.run = .awaitingInput ra s.mode := by
  injection h with h
  subst h
  rfl

theorem exec_halt_run {s t : State} (h : exec .halt s = .next t) : t.run = .halted := by
  injection h with h
  subst h
  rfl

/-- No operation of a handler writes the run state, the mode of the Step or the parameters. -/
theorem HandlerCopy.sameEngine {i : Instr} {s u : State} (h : HandlerCopy i s u) :
    SameEngine s u := by
  refine ⟨h.run_eq, ?_⟩
  induction h with
  | start => exact ⟨rfl, rfl⟩
  | setReg _ _ ih | setFlags _ ih | emit _ ih => exact ih
  | store _ ht ih =>
    obtain ⟨_, _, rfl⟩ := memWrite_ok ht
    exact ih
  | push _ ht ih =>
    obtain ⟨_, rfl⟩ := push_ok ht
    exact ih
  | pop _ ht ih =>
    obtain ⟨_, _, rfl⟩ := pop_ok ht
    exact ih

theorem exec_sameEngine {i : Instr} {s t : State} (hin : ∀ ra, i ≠ .inp ra) (hhalt : i ≠ .halt)
    (h : exec i s = .next t) : SameEngine s t := by
  obtain ⟨ra, hi, -⟩ | ⟨hi, -⟩ | ⟨u, n, hu, -, rfl⟩ := exec_next_cases h
  · exact absurd hi (hin ra)
  · exact absurd hi hhalt
  · exact hu.sameEngine

theorem exec_cfg_mode {i : Instr} {s t : State} (h : exec i s = .next t) :
    t.cfg = s.cfg ∧ t.mode = s.mode := by
  obtain ⟨ra, -, rfl⟩ | ⟨-, rfl⟩ | ⟨u, n, hu, -, rfl⟩ := exec_next_cases h
  · exact ⟨rfl, rfl⟩
  · exact ⟨rfl, rfl⟩
  · obtain ⟨-, hmode, hcfg⟩ := hu.sameEngine
    exact ⟨hcfg, hmode⟩

/-- Settles O9: IN and HALT set the run state, and every other instruction commits a handler's copy. -/
theorem runStateMovesAsTheInstructionSays : Obligations.RunStateMovesAsTheInstructionSays := by
  intro s t h
  obtain ⟨hrun, -, hexec⟩ := step_next h
  refine ⟨hrun, fun ra hi => exec_inp_run (hi ▸ hexec), fun hi => exec_halt_run (hi ▸ hexec),
    fun hin hhalt => ?_, exec_cfg_mode hexec⟩
  obtain ⟨hsame, -, -⟩ := exec_sameEngine hin hhalt hexec
  exact hsame.trans hrun

/-! ### The events of an instruction -/

/-- Everything a completed instruction can do to the events: OUT and NOP append one, and no other
instruction emits (40_engine.md R118). -/
theorem exec_events_cases {i : Instr} {s t : State} (h : exec i s = .next t) :
    (∃ ra, i = .out ra ∧ t.events = s.events ++ [.out (s.reg ra).toInt]) ∨
      (∃ tag pay tv, i = .nop tag pay ∧ decodeTyped tag pay = .ok tv ∧
        t.events = s.events ++ [.literal tv]) ∨
      ((∀ ra, i ≠ .out ra) ∧ (∀ tag pay, i ≠ .nop tag pay) ∧ t.events = s.events) := by
  cases i with
  | out ra =>
    obtain ⟨-, rfl⟩ := advance_next h
    exact .inl ⟨ra, rfl, rfl⟩
  | nop tag pay =>
    obtain ⟨tv, htv, h⟩ := attempt_next h
    obtain ⟨-, rfl⟩ := advance_next h
    exact .inr (.inl ⟨tag, pay, tv, rfl, htv, rfl⟩)
  | inp | halt =>
    injection h with h
    subst h
    exact .inr (.inr ⟨nofun, nofun, rfl⟩)
  | add | sub | mul | and | or | nor | not | shl | shr | rol | ror | move | loadr | cmp | clr
  | jump | beq | bne | blt | jle =>
    obtain ⟨-, rfl⟩ := commit_next h
    exact .inr (.inr ⟨nofun, nofun, rfl⟩)
  | div =>
    obtain ⟨-, h⟩ := execDiv_next h
    obtain ⟨-, rfl⟩ := advance_next h
    exact .inr (.inr ⟨nofun, nofun, rfl⟩)
  | load =>
    obtain ⟨_, -, h⟩ := attempt_next h
    obtain ⟨_, -, h⟩ := attempt_next h
    obtain ⟨-, rfl⟩ := advance_next h
    exact .inr (.inr ⟨nofun, nofun, rfl⟩)
  | store | storer =>
    obtain ⟨_, hu, h⟩ := attempt_next h
    obtain ⟨-, -, rfl⟩ := memWrite_ok hu
    obtain ⟨-, rfl⟩ := advance_next h
    exact .inr (.inr ⟨nofun, nofun, rfl⟩)
  | push | call =>
    obtain ⟨_, hu, h⟩ := attempt_next h
    obtain ⟨-, rfl⟩ := push_ok hu
    obtain ⟨-, rfl⟩ := commit_next h
    exact .inr (.inr ⟨nofun, nofun, rfl⟩)
  | pop | ret =>
    obtain ⟨⟨_, _⟩, hu, h⟩ := attempt_next h
    obtain ⟨-, -, rfl⟩ := pop_ok hu
    obtain ⟨-, rfl⟩ := commit_next h
    exact .inr (.inr ⟨nofun, nofun, rfl⟩)

theorem step_events_append {s t : State} (h : step s = .next t) :
    ∃ evs, t.events = s.events ++ evs := by
  obtain ⟨-, -, hexec⟩ := step_next h
  obtain ⟨_, -, hev⟩ | ⟨_, _, _, -, -, hev⟩ | ⟨-, -, hev⟩ := exec_events_cases hexec
  · exact ⟨_, hev⟩
  · exact ⟨_, hev⟩
  · exact ⟨[], hev.trans (List.append_nil _).symm⟩

/-- Settles O24: the three clauses are the three cases of what an instruction does to the events. -/
theorem eventsComeOnlyFromOutAndNop : Obligations.EventsComeOnlyFromOutAndNop := by
  intro i s t h
  obtain ⟨ra, rfl, hev⟩ | ⟨tag, pay, tv, rfl, htv, hev⟩ | ⟨hout, hnop, hev⟩ := exec_events_cases h
  · refine ⟨?_, nofun, fun hout _ => absurd rfl (hout ra)⟩
    rintro _ ⟨⟩
    exact hev
  · refine ⟨nofun, ?_, fun _ hnop => absurd rfl (hnop tag pay)⟩
    rintro _ _ ⟨⟩
    exact ⟨tv, htv, hev⟩
  · exact ⟨fun ra hi => absurd hi (hout ra), fun tag pay hi => absurd hi (hnop tag pay),
      fun _ _ => hev⟩

end Sys2Proof.Machine
end

section
/-! PROOFS. The host's `step()`, run loop, `provide_input` and reads (40_engine.md R114 to R117, R121):
what each answers for each outcome of its Step, and from that the statements. -/

namespace Sys2Proof.Machine

/-! ### `step()` -/

theorem hostStep_of_fault {s : State} {e : Fault} (h : step (s.setMode .step) = .fault e) :
    hostStep s = (.error e, s) := by
  simp only [hostStep, h]

theorem hostStep_of_running {s t : State} (h : step (s.setMode .step) = .next t)
    (hrun : t.run = .running) :
    hostStep s = (.stepped (t.events.drop s.events.length), t) := by
  simp only [hostStep, h, hrun]

theorem hostStep_of_awaiting {s t : State} {r : Reg} {m : RunMode}
    (h : step (s.setMode .step) = .next t) (hrun : t.run = .awaitingInput r m) :
    hostStep s = (.nowAwaitingInput r, t) := by
  simp only [hostStep, h, hrun]

theorem hostStep_of_halted {s t : State} (h : step (s.setMode .step) = .next t)
    (hrun : t.run = .halted) : hostStep s = (.nowHalted, t) := by
  simp only [hostStep, h, hrun]

theorem hostStep_of_not_running {s : State} (h : s.run ≠ .running) :
    hostStep s = (.notRunning s.run, s) := by
  have hmode : (s.setMode .step).run ≠ .running := h
  simp only [hostStep, step_of_not_running hmode]

/-- Settles O17: the run state after the Step chooses the reply, and the events only grow. -/
theorem hostStepReportsTheOutcomeOfItsStep : Obligations.HostStepReportsTheOutcomeOfItsStep := by
  intro s _
  refine ⟨fun e he => ?error, fun t ht => ?next⟩
  case error =>
    have hstep : hostCall .step s = (.error e, s) := hostStep_of_fault he
    refine ⟨hstep, ?_⟩
    rw [hstep]
    exact hstep
  case next =>
    obtain ⟨-, hin, hhalt, hother, -, -⟩ := runStateMovesAsTheInstructionSays _ _ ht
    refine ⟨fun ra hi => hostStep_of_awaiting ht (hin ra hi),
      fun hi => hostStep_of_halted ht (hhalt hi), fun hnin hnhalt => ?_⟩
    have hrun : t.run = .running := hother hnin hnhalt
    obtain ⟨evs, hevs⟩ := step_events_append ht
    have hdrop : t.events.drop s.events.length = evs := by
      rw [hevs]
      exact List.drop_left
    exact ⟨hrun, evs, hevs, hdrop ▸ hostStep_of_running ht hrun⟩

/-! ### The run loop -/

theorem runToHaltOrInput_of_running (fuel : Nat) {s : State} (h : s.run = .running) :
    runToHaltOrInput fuel s = runLoop fuel s := by
  simp only [runToHaltOrInput, h]

theorem runToHaltOrInput_of_not_running (fuel : Nat) {s : State} (h : s.run ≠ .running) :
    runToHaltOrInput fuel s = (.notRunning s.run, s) := by
  cases hrun : s.run with
  | running => exact absurd hrun h
  | awaitingInput | halted => simp only [runToHaltOrInput, hrun]

/-- Settles O8: neither operation fetches when the run state is not Running. -/
theorem engineNotRunningDoesNothing : Obligations.EngineNotRunningDoesNothing := fun _ h =>
  ⟨step_of_not_running h, hostStep_of_not_running h, fun fuel => runToHaltOrInput_of_not_running fuel h⟩

theorem runLoop_succ_of_sentinel (fuel : Nat) {s : State} (h0 : memGet s.mem s.pc = 0) :
    runLoop (fuel + 1) s = (.stoppedAtSentinel s.pc, s) := by
  simp only [runLoop, if_pos h0]

theorem runLoop_succ_of_fault (fuel : Nat) {s : State} {e : Fault} (h0 : memGet s.mem s.pc ≠ 0)
    (h : step (s.setMode .run) = .fault e) : runLoop (fuel + 1) s = (.error e, s) := by
  simp only [runLoop, if_neg h0, h]

theorem runLoop_succ_of_refused (fuel : Nat) {s : State} {q : Refusal} (h0 : memGet s.mem s.pc ≠ 0)
    (h : step (s.setMode .run) = .refused q) : runLoop (fuel + 1) s = (.notRunning s.run, s) := by
  simp only [runLoop, if_neg h0, h]

theorem runLoop_succ_of_halted (fuel : Nat) {s t : State} (h0 : memGet s.mem s.pc ≠ 0)
    (h : step (s.setMode .run) = .next t) (hrun : t.run = .halted) :
    runLoop (fuel + 1) s = (.halted, t) := by
  simp only [runLoop, if_neg h0, h, hrun]

theorem runLoop_succ_of_awaiting (fuel : Nat) {s t : State} {r : Reg} {m : RunMode}
    (h0 : memGet s.mem s.pc ≠ 0) (h : step (s.setMode .run) = .next t)
    (hrun : t.run = .awaitingInput r m) : runLoop (fuel + 1) s = (.awaitingInput r, t) := by
  simp only [runLoop, if_neg h0, h, hrun]

theorem runLoop_succ_of_running (fuel : Nat) {s t : State} (h0 : memGet s.mem s.pc ≠ 0)
    (h : step (s.setMode .run) = .next t) (hrun : t.run = .running) :
    runLoop (fuel + 1) s = runLoop fuel t := by
  simp only [runLoop, if_neg h0, h, hrun]

/-- Settles O57: one turn of the loop, for each word at pc and each outcome of the Step. -/
theorem runLoopRepeatsTheStep : Obligations.RunLoopRepeatsTheStep := by
  intro fuel s hrun
  have hloop : hostCall (.runToHaltOrInput (fuel + 1)) s = runLoop (fuel + 1) s :=
    runToHaltOrInput_of_running (fuel + 1) hrun
  rw [hloop]
  refine ⟨runLoop_succ_of_sentinel fuel, fun h0 => ⟨fun e => runLoop_succ_of_fault fuel h0,
    fun t ht => ⟨runLoop_succ_of_halted fuel h0 ht, fun r m => runLoop_succ_of_awaiting fuel h0 ht,
      fun htrun => ?_⟩⟩⟩
  exact (runLoop_succ_of_running fuel h0 ht htrun).trans (runToHaltOrInput_of_running fuel htrun).symm

/-- One turn of the loop ends with an answer or goes on from a state, the same for every fuel. -/
theorem runLoop_succ_cases (s : State) :
    (∃ p, ∀ fuel, runLoop (fuel + 1) s = p) ∨ ∃ t, ∀ fuel, runLoop (fuel + 1) s = runLoop fuel t := by
  by_cases h0 : memGet s.mem s.pc = 0
  · exact .inl ⟨_, fun fuel => runLoop_succ_of_sentinel fuel h0⟩
  cases h : step (s.setMode .run) with
  | fault e => exact .inl ⟨_, fun fuel => runLoop_succ_of_fault fuel h0 h⟩
  | refused q => exact .inl ⟨_, fun fuel => runLoop_succ_of_refused fuel h0 h⟩
  | next t =>
    cases hrun : t.run with
    | running => exact .inr ⟨t, fun fuel => runLoop_succ_of_running fuel h0 h hrun⟩
    | awaitingInput r m => exact .inl ⟨_, fun fuel => runLoop_succ_of_awaiting fuel h0 h hrun⟩
    | halted => exact .inl ⟨_, fun fuel => runLoop_succ_of_halted fuel h0 h hrun⟩

theorem runLoop_add (more : Nat) {fuel : Nat} {s : State} (h : (runLoop fuel s).1 ≠ .notFinished) :
    runLoop (fuel + more) s = runLoop fuel s := by
  induction fuel generalizing s with
  | zero => exact absurd rfl h
  | succ fuel ih =>
    rw [Nat.succ_add]
    obtain ⟨p, hp⟩ | ⟨t, ht⟩ := runLoop_succ_cases s
    · rw [hp, hp]
    · rw [ht] at h
      rw [ht, ht]
      exact ih h

/-- Settles O58, by induction on the fuel that sufficed. -/
theorem runLoopAnswerDoesNotDependOnFuel : Obligations.RunLoopAnswerDoesNotDependOnFuel := by
  intro fuel more s h
  by_cases hrun : s.run = .running
  · simp only [hostCall, runToHaltOrInput_of_running _ hrun] at h ⊢
    exact runLoop_add more h
  · simp only [hostCall, runToHaltOrInput_of_not_running _ hrun]

/-! ### `provide_input` -/

theorem provideInput_of_not_awaiting {i v : Int} {fuel : Nat} {s : State}
    (h : ∀ r m, s.run ≠ .awaitingInput r m) :
    provideInput i v fuel s = (.refusedNotAwaitingInput, s) := by
  cases hrun : s.run with
  | awaitingInput r m => exact absurd hrun (h r m)
  | running | halted => simp only [provideInput, hrun]

section
variable {r : Reg} {m : RunMode} {i v : Int} {fuel : Nat} {s : State}

theorem provideInput_of_wrong_index (hrun : s.run = .awaitingInput r m)
    (hi : i < 0 ∨ i > 3 ∨ i ≠ r.number) :
    provideInput i v fuel s = (.error (.invalidRegisterIndex i), s) := by
  simp only [provideInput, hrun]
  split
  · rfl
  · next hin =>
    have hne : i ≠ r.number := by omega
    rw [if_pos hne]

theorem number_not_outside (r : Reg) : ¬((r.number : Int) < 0 ∨ (r.number : Int) > 3) := by
  have := r.number_lt
  omega

theorem provideInput_of_pc_at_end (hrun : s.run = .awaitingInput r m)
    (hpc : s.cfg.memSize ≤ s.pc + 1) :
    provideInput r.number v fuel s = (.error (.addressOutOfRange (s.pc + 1)), s) := by
  simp only [provideInput, hrun, if_neg (number_not_outside r), ne_eq, not_true_eq_false, if_false,
    if_pos hpc]

theorem provideInput_of_accepted_step (hrun : s.run = .awaitingInput r .step)
    (hpc : s.pc + 1 < s.cfg.memSize) :
    provideInput r.number v fuel s = (.resumed, acceptInput r v s) := by
  simp only [provideInput, hrun, if_neg (number_not_outside r), ne_eq, not_true_eq_false, if_false,
    if_neg (Nat.not_le.mpr hpc)]

theorem provideInput_of_accepted_run (hrun : s.run = .awaitingInput r .run)
    (hpc : s.pc + 1 < s.cfg.memSize) :
    provideInput r.number v fuel s = runToHaltOrInput fuel (acceptInput r v s) := by
  simp only [provideInput, hrun, if_neg (number_not_outside r), ne_eq, not_true_eq_false, if_false,
    if_neg (Nat.not_le.mpr hpc)]

end

theorem acceptInput_inputTaken (r : Reg) (v : Int) (s : State) :
    Claims.InputTaken r v s (acceptInput r v s) :=
  ⟨setReg_reg_same s r (u16 v), fun _ hq => setReg_reg_other s (u16 v) hq, rfl, rfl, rfl,
    fun _ => rfl, rfl, rfl, rfl, rfl⟩

/-- Settles O44: the checks in the order of R244, then the completed IN. -/
theorem provideInputCompletesOnlyThePendingIn : Obligations.ProvideInputCompletesOnlyThePendingIn := by
  intro i v fuel s
  refine ⟨provideInput_of_not_awaiting, fun r m hrun => ⟨provideInput_of_wrong_index hrun, ?_, ?_⟩⟩
  · rintro rfl hpc
    exact provideInput_of_pc_at_end hrun hpc
  · rintro rfl hpc
    refine ⟨acceptInput r v s, acceptInput_inputTaken r v s, ?_, ?_⟩
    · rintro rfl
      exact provideInput_of_accepted_step hrun hpc
    · rintro rfl
      exact provideInput_of_accepted_run hrun hpc

/-! ### The reads -/

theorem readRegister_number (r : Reg) (s : State) :
    readRegister r.number s = .value (s.reg r).toInt := by
  rw [readRegister, if_neg (number_not_outside r), Int.toNat_natCast, Reg.ofNumber_number, s16]

theorem readMemory_of_lt {s : State} {a : Nat} (h : a < s.cfg.memSize) :
    readMemory a s = .word (memGet s.mem a) := by
  simp only [readMemory, memRead_of_lt h]

theorem readMemory_of_le {s : State} {a : Nat} (h : s.cfg.memSize ≤ a) :
    readMemory a s = .error (.addressOutOfRange a) := by
  simp only [readMemory, memRead_of_le h]

/-- Settles O60: each read answers from the state and hands the same state back. -/
theorem hostReadsReportAndChangeNothing : Obligations.HostReadsReportAndChangeNothing := fun s =>
  ⟨fun r => congrArg (·, s) (readRegister_number r s), fun _ hi => congrArg (·, s) (if_pos hi),
    rfl, rfl, rfl, rfl, fun _ ha => congrArg (·, s) (readMemory_of_lt ha),
    fun _ ha => congrArg (·, s) (readMemory_of_le ha), rfl⟩

end Sys2Proof.Machine
end

section
/-! PROOFS. `load_image` (40_engine.md R119): which images it accepts, what it reports of the others,
and the memory it leaves; and the invariant over every host operation. -/

namespace Sys2Proof.Machine

/-! ### The check of an image -/

/-- The error of a word that does not go to ordinary memory (R119). -/
def placeError (c : Config) (a : Nat) : Fault :=
  if c.memSize ≤ a then .addressOutOfRange a else .stackRegionViolation a

theorem imageError_cons_of_lt {c : Config} {a : Nat} (w : Word) (ws : List Word)
    (h : a < c.stackBase) : imageError c a (w :: ws) = imageError c (a + 1) ws := by
  have hmem : a < c.memSize := h.trans_le (stackBase_le_memSize c)
  rw [imageError, if_neg (Nat.not_le.mpr hmem), if_neg (Nat.not_le.mpr h)]

theorem imageError_cons_of_le {c : Config} {a : Nat} (w : Word) (ws : List Word)
    (h : c.stackBase ≤ a) : imageError c a (w :: ws) = some (placeError c a) := by
  rw [imageError, if_pos h, placeError, apply_ite some]

theorem imageError_of_below {c : Config} {a : Nat} {ws : List Word}
    (h : a + ws.length ≤ c.stackBase) : imageError c a ws = none := by
  induction ws generalizing a with
  | nil => rfl
  | cons w ws ih =>
    rw [List.length_cons] at h
    rw [imageError_cons_of_lt w ws (by omega)]
    exact ih (by omega)

/-- The first address outside ordinary memory is the base, or the lowest one of the stack region. -/
theorem imageError_of_beyond {c : Config} {a : Nat} {ws : List Word} (hne : ws ≠ [])
    (h : c.stackBase < a + ws.length) :
    imageError c a ws = some (placeError c (max a c.stackBase)) := by
  induction ws generalizing a with
  | nil => exact absurd rfl hne
  | cons w ws ih =>
    rcases Nat.lt_or_ge a c.stackBase with hlt | hge
    · rw [List.length_cons] at h
      have hrest : ws ≠ [] := by
        rintro rfl
        rw [List.length_nil] at h
        omega
      have hmax : max (a + 1) c.stackBase = max a c.stackBase := by omega
      rw [imageError_cons_of_lt w ws hlt, ih hrest (by omega), hmax]
    · rw [imageError_cons_of_le w ws hge, Nat.max_eq_left hge]

section
variable {c : Config} {base : Nat} {words : List Word}

theorem loadError_nil_of_le (h : c.memSize ≤ base) :
    loadError c base [] = some (.addressOutOfRange base) :=
  if_pos ⟨rfl, h⟩

theorem loadError_of_ne_nil (h : words ≠ []) : loadError c base words = imageError c base words :=
  if_neg fun hnil => h hnil.1

theorem loadError_of_imageFits (h : Claims.ImageFits c base words) :
    loadError c base words = none := by
  obtain ⟨rfl, hbase⟩ | ⟨hne, hlen⟩ := h
  · exact if_neg fun hle => Nat.not_le.mpr hbase hle.2
  · rw [loadError_of_ne_nil hne, imageError_of_below hlen]

theorem imageFits_of_loadError (h : loadError c base words = none) :
    Claims.ImageFits c base words := by
  by_cases hne : words = []
  · subst hne
    refine .inl ⟨rfl, Nat.lt_of_not_le fun hle => ?_⟩
    rw [loadError_nil_of_le hle] at h
    exact nomatch h
  · refine .inr ⟨hne, Nat.le_of_not_lt fun hlt => ?_⟩
    rw [loadError_of_ne_nil hne, imageError_of_beyond hne hlt] at h
    exact nomatch h

theorem base_lt_of_imageFits (h : Claims.ImageFits c base words) : base < c.memSize := by
  obtain ⟨-, hbase⟩ | ⟨hne, hlen⟩ := h
  · exact hbase
  · have hpos := List.length_pos_of_ne_nil hne
    have := stackBase_le_memSize c
    omega

end

/-! ### The memory an image leaves -/

theorem memGet_writeImage_outside {base a : Nat} {words : List Word} (m : Memory)
    (h : a < base ∨ base + words.length ≤ a) :
    memGet (writeImage m base words) a = memGet m a := by
  induction words generalizing m base with
  | nil => rfl
  | cons w ws ih =>
    rw [List.length_cons] at h
    rw [writeImage, ih _ (by omega), memGet_memSet_other m w (by omega)]

theorem memGet_writeImage_inside (m : Memory) (base : Nat) (words : List Word) {j : Nat}
    (h : j < words.length) : memGet (writeImage m base words) (base + j) = words[j] := by
  induction words generalizing m base j with
  | nil => exact absurd h (Nat.not_lt_zero j)
  | cons w ws ih =>
    cases j with
    | zero =>
      rw [Nat.add_zero, writeImage, memGet_writeImage_outside _ (.inl (Nat.lt_succ_self base))]
      exact memGet_memSet_same m base w
    | succ j =>
      rw [writeImage, ← Nat.succ_add_eq_add_succ base j]
      exact ih (memSet m base w) (base + 1) (Nat.lt_of_succ_lt_succ h)

/-! ### `load_image` -/

theorem loadImage_of_imageFits {base : Nat} {words : List Word} {s : State}
    (h : Claims.ImageFits s.cfg base words) :
    loadImage base words s =
      (.done, ((s.setMem (writeImage s.mem base words)).setPc base).setRun .running) := by
  simp only [loadImage, loadError_of_imageFits h]

theorem loadImage_of_loadError {base : Nat} {words : List Word} {s : State} {e : Fault}
    (h : loadError s.cfg base words = some e) : loadImage base words s = (.error e, s) := by
  simp only [loadImage, h]

/-- Settles O55: the accepted image is written word by word, and a refused one is named by its first
address outside ordinary memory. -/
theorem loadImagePlacesAllWordsOrNone : Obligations.LoadImagePlacesAllWordsOrNone := by
  intro base words s
  refine ⟨fun hfits => ?accepted, ?emptyOutside, fun hne hlen => ?beyond⟩
  case accepted =>
    exact ⟨_, loadImage_of_imageFits hfits, fun j hj => memGet_writeImage_inside s.mem base words hj,
      fun a ha => memGet_writeImage_outside s.mem ha, rfl, rfl, fun _ => rfl, rfl, rfl, rfl, rfl, rfl⟩
  case emptyOutside =>
    rintro rfl hbase
    exact loadImage_of_loadError (loadError_nil_of_le hbase)
  case beyond =>
    exact loadImage_of_loadError ((loadError_of_ne_nil hne).trans (imageError_of_beyond hne hlen))

/-! ### The invariant -/

/-- An image below the stack region is a sequence of ordinary writes. -/
theorem State.Inv.writeImage {s : State} {base : Nat} {words : List Word} (h : s.Inv)
    (hlen : base + words.length ≤ s.cfg.stackBase) :
    (s.setMem (writeImage s.mem base words)).Inv := by
  induction words generalizing s base with
  | nil => exact h
  | cons w ws ih =>
    rw [List.length_cons] at hlen
    have hbase : base < s.cfg.stackBase := by omega
    have hfirst : (s.setMem (memSet s.mem base w)).Inv :=
      h.memWrite (memWrite_of_lt w (hbase.trans_le (stackBase_le_memSize s.cfg)) hbase)
    have hrest : base + 1 + ws.length ≤ s.cfg.stackBase := by omega
    exact ih hfirst hrest

theorem State.Inv.loaded {s : State} {base : Nat} {words : List Word} (h : s.Inv)
    (hfits : Claims.ImageFits s.cfg base words) :
    (((s.setMem (Machine.writeImage s.mem base words)).setPc base).setRun .running).Inv := by
  have himage : (s.setMem (Machine.writeImage s.mem base words)).Inv := by
    obtain ⟨rfl, -⟩ | ⟨-, hlen⟩ := hfits
    · exact h
    · exact h.writeImage hlen
  exact himage.of_eq rfl (base_lt_of_imageFits hfits) rfl rfl

/-- Settles O14: reset, an accepted image, a Step in either mode and an accepted input keep the
invariant, and these are all the ways in which a host operation changes the state. -/
theorem everyHostOperationKeepsTheInvariant : Obligations.EveryHostOperationKeepsTheInvariant := by
  intro op s hs
  refine hostCall_keeps ?reset ?load ?step ?accept op hs
  case reset => exact fun s hs => ofConfig_inv hs.cfgValid
  case load => exact fun s base words hs hnone => hs.loaded (imageFits_of_loadError hnone)
  case step =>
    intro s m t hs h
    have hmode : (s.setMode m).Inv := hs.of_eq rfl hs.pcInside rfl rfl
    exact everyStepKeepsTheInvariant _ _ hmode h
  case accept => exact fun s r v hs hpc => hs.of_eq rfl hpc rfl rfl

end Sys2Proof.Machine
end

section
/-! PROOFS. The arithmetic and logic instructions (41_arith_logic.md): each ends in the advance of a
copy with one register and the flags written, so its statement is that one rule and a fact about what
it writes. -/

namespace Sys2Proof.Machine

/-! ### The rule that the instructions share -/

/-- An instruction that advances a copy with `r` and the flags written changes nothing else but pc. -/
theorem exec_writes {i : Instr} {s : State} {r : Reg} {v : Half} {f : Flags}
    (hpc : s.pc + 1 < s.cfg.memSize) (hexec : exec i s = advance ((s.setReg r v).setFlags f)) :
    ∃ t, exec i s = .next t ∧ t.reg r = v ∧ OnlyReg r s t ∧ t.flags = f ∧ t.pc = s.pc + 1 ∧
      Quiet s t :=
  ⟨_, hexec.trans (advance_of_lt hpc), setReg_reg_same s r v, fun _ hq => setReg_reg_other s v hq,
    rfl, rfl, fun _ => rfl, rfl, rfl, rfl, rfl, rfl⟩

/-- The same for an instruction that writes no flag. -/
theorem writesOnly_of_exec {i : Instr} {s : State} {r : Reg} {v : Half}
    (hpc : s.pc + 1 < s.cfg.memSize) (hexec : exec i s = advance (s.setReg r v)) :
    Claims.WritesOnly i r v s := by
  rw [← setFlags_self (s.setReg r v)] at hexec
  exact exec_writes hpc hexec

/-! ### ADD, SUB and MUL (R130 to R132) -/

theorem outside16_eq (n : Int) : outside16 n = decide (n < -32768 ∨ n > 32767) := by
  norm_num [outside16]

theorem addFlags_of_sum (f : Flags) {a b res : Half}
    (hres : res = BitVec.ofInt 16 (a.toInt + b.toInt)) :
    addFlags f a b = { f with
      z := decide (res = 0)
      c := decide (a.toNat + b.toNat ≥ 65536)
      v := decide (a.toInt + b.toInt < -32768 ∨ a.toInt + b.toInt > 32767) } := by
  rw [addFlags, outside16_eq, hres]
  rfl

/-- Settles O25: the flags follow from the two operands and the sum that was written. -/
theorem addWritesSumZeroCarryOverflow : Obligations.AddWritesSumZeroCarryOverflow := by
  intro ra rb rc s hpc
  obtain ⟨t, hexec, hres, hother, hflags, hrest⟩ := exec_writes (i := .add ra rb rc) hpc rfl
  exact ⟨t, hexec, hres, hother, hflags.trans (addFlags_of_sum _ hres), hrest⟩

theorem subFlags_of_difference (f : Flags) {a b res : Half}
    (hres : res = BitVec.ofInt 16 (a.toInt - b.toInt)) :
    subFlags f a b = { f with
      z := decide (res = 0)
      n := decide (a.toInt < b.toInt) } := by
  have hneg : s16 a - s16 b < 0 ↔ a.toInt < b.toInt := sub_neg
  rw [subFlags, decide_eq_decide.mpr hneg, hres]
  rfl

/-- Settles O26: the exact difference is negative exactly when the first operand is less. -/
theorem subWritesDifferenceZeroNegative : Obligations.SubWritesDifferenceZeroNegative := by
  intro ra rb rc s hpc
  obtain ⟨t, hexec, hres, hother, hflags, hrest⟩ := exec_writes (i := .sub ra rb rc) hpc rfl
  exact ⟨t, hexec, hres, hother, hflags.trans (subFlags_of_difference _ hres), hrest⟩

theorem natAbs_gt_threshold_iff (p : Int) : p.natAbs > 2 ^ 21 - 1 ↔ p > 2097151 ∨ p < -2097151 := by
  omega

theorem mulFlags_of_product (f : Flags) {a b res : Half}
    (hres : res = BitVec.ofInt 16 (a.toInt * b.toInt)) :
    mulFlags f a b = { f with
      z := decide (res = 0)
      c := decide (a.toInt * b.toInt > 2097151 ∨ a.toInt * b.toInt < -2097151)
      v := decide (a.toInt * b.toInt > 2097151 ∨ a.toInt * b.toInt < -2097151) } := by
  rw [mulFlags, decide_eq_decide.mpr (natAbs_gt_threshold_iff _), hres]
  rfl

/-- Settles O27: C and V compare the magnitude, the statement the product with both bounds. -/
theorem mulWritesLowProductZeroCarryOverflow : Obligations.MulWritesLowProductZeroCarryOverflow := by
  intro ra rb rc s hpc
  obtain ⟨t, hexec, hres, hother, hflags, hrest⟩ := exec_writes (i := .mul ra rb rc) hpc rfl
  exact ⟨t, hexec, hres, hother, hflags.trans (mulFlags_of_product _ hres), hrest⟩

/-! ### DIV (R133) -/

/-- The truncated quotient, by the formula of R133. A quotient of smaller by larger is 0 on both
sides, and any other has the sign of the product. -/
theorem divT_eq (a b : Int) : divT a b = (a * b).sign * ((a.natAbs / b.natAbs : Nat) : Int) := by
  have habs : (a.tdiv b).natAbs = a.natAbs / b.natAbs := Int.natAbs_tdiv a b
  rw [divT, ← Int.sign_mul_natAbs (a.tdiv b), habs, Int.sign_tdiv]
  split
  · next hlt => simp [Nat.div_eq_of_lt hlt]
  · rw [Int.sign_mul]

theorem s16_eq_zero_iff (v : Half) : s16 v = 0 ↔ v = 0 := BitVec.toInt_inj (y := 0)

theorem exec_div_of_ne {rb : Reg} {s : State} (ra rc : Reg) (hb : s.reg rb ≠ 0) :
    exec (.div ra rb rc) s =
      advance ((s.setReg rc (u16 (divT (s16 (s.reg ra)) (s16 (s.reg rb))))).setFlags
        (divFlags s.flags (s.reg ra) (s.reg rb))) :=
  if_neg (mt (s16_eq_zero_iff _).mp hb)

/-- Settles O28: the truncated quotient is R133's formula, and a register is 0 when its value is. -/
theorem divWritesTruncatedQuotientOrFaults : Obligations.DivWritesTruncatedQuotientOrFaults := by
  intro ra rb rc s
  refine ⟨fun hb hpc => ?quotient, fun hb => ?zero⟩
  case quotient =>
    obtain ⟨t, hexec, hres, hother, hflags, hrest⟩ := exec_writes hpc (exec_div_of_ne ra rc hb)
    refine ⟨t, hexec, ?_, hother, ?_, hrest⟩
    · exact hres.trans (congrArg u16 (divT_eq _ _))
    · rw [hflags, hres]
      rfl
  case zero => exact if_pos ((s16_eq_zero_iff _).mpr hb)

/-! ### AND, OR, NOR and NOT (R134 to R137) -/

/-- Settles O29: each writes the bit vector operation, whose bits the library states. -/
theorem logicInstructionsWriteTheirBits : Obligations.LogicInstructionsWriteTheirBits := by
  intro ra rb rc s hpc
  refine ⟨⟨_, writesOnly_of_exec hpc rfl, fun k => ?and⟩,
    ⟨_, writesOnly_of_exec hpc rfl, fun k => ?or⟩,
    ⟨_, writesOnly_of_exec hpc rfl, fun k hk => ?nor⟩,
    ⟨_, writesOnly_of_exec hpc rfl, fun k hk => ?not⟩⟩
  case and => exact BitVec.getLsbD_and
  case or => exact BitVec.getLsbD_or
  case nor => simp [hk]
  case not => simp [hk]

/-! ### SHL and SHR (R138, R139) -/

theorem getLsbD_shiftLeft {k : Nat} (v : Half) (n : Nat) (hk : k < 16) :
    (shiftLeft v n).getLsbD k = (decide (n ≤ k) && v.getLsbD (k - n)) := by
  rw [shiftLeft, BitVec.getLsbD_ofNat, Nat.testBit_shiftLeft, BitVec.testBit_toNat, decide_eq_true hk,
    Bool.true_and]

theorem getLsbD_shiftRight {k : Nat} (v : Half) (n : Nat) (hk : k < 16) :
    (shiftRight v n).getLsbD k = v.getLsbD (k + n) := by
  rw [shiftRight, BitVec.getLsbD_ofNat, Nat.testBit_shiftRight, BitVec.testBit_toNat,
    decide_eq_true hk, Bool.true_and, Nat.add_comm]

/-- Settles O30: a shift is a shift of the number, and its bits are those of the number. -/
theorem shiftsMoveBitsByTheAmountModulo16 : Obligations.ShiftsMoveBitsByTheAmountModulo16 := by
  intro ra rb s hpc
  exact ⟨⟨_, writesOnly_of_exec hpc rfl, fun _ hk => getLsbD_shiftLeft _ _ hk⟩,
    ⟨_, writesOnly_of_exec hpc rfl, fun _ hk => getLsbD_shiftRight _ _ hk⟩⟩

/-! ### ROL and ROR (R140, R141) -/

/-- Rotating left is rotating right by the rest of the circle. -/
theorem rotLeft_eq_rotRight (v : Half) {n : Nat} (hn : n ≤ 16) : rotLeft v n = rotRight v (16 - n) := by
  rw [rotLeft, rotRight, Nat.sub_sub_self hn, Nat.or_comm]

theorem rotRight_eq_or (v : Half) (n : Nat) :
    rotRight v n = shiftRight v n ||| shiftLeft v (16 - n) := by
  rw [rotRight, shiftRight, shiftLeft, BitVec.ofNat_or]

/-- Bit `k` comes from the part shifted right while `k + n` is inside the register, and from the part
shifted left where it has gone around. -/
theorem getLsbD_rotRight (v : Half) {n k : Nat} (hn : n ≤ 16) (hk : k < 16) :
    (rotRight v n).getLsbD k = v.getLsbD ((k + n) % 16) := by
  rw [rotRight_eq_or, BitVec.getLsbD_or, getLsbD_shiftRight v n hk, getLsbD_shiftLeft v (16 - n) hk]
  by_cases hin : k + n < 16
  · have hlow : ¬ 16 - n ≤ k := by omega
    rw [decide_eq_false hlow, Bool.false_and, Bool.or_false, Nat.mod_eq_of_lt hin]
  · have hhigh : 16 - n ≤ k := by omega
    have hsub : k - (16 - n) = (k + n) % 16 := by omega
    rw [BitVec.getLsbD_of_ge v (k + n) (Nat.le_of_not_lt hin), Bool.false_or, decide_eq_true hhigh,
      Bool.true_and, hsub]

theorem getLsbD_rotLeft (v : Half) {n k : Nat} (hn : n < 16) (hk : k < 16) :
    (rotLeft v n).getLsbD ((k + n) % 16) = v.getLsbD k := by
  have hback : ((k + n) % 16 + (16 - n)) % 16 = k := by omega
  rw [rotLeft_eq_rotRight v hn.le, getLsbD_rotRight v (Nat.sub_le 16 n) (Nat.mod_lt _ (by decide)),
    hback]

theorem rotRight_rotLeft (v : Half) {n : Nat} (hn : n < 16) : rotRight (rotLeft v n) n = v := by
  refine BitVec.eq_of_getLsbD_eq fun k hk => ?_
  rw [getLsbD_rotRight _ hn.le hk, getLsbD_rotLeft v hn hk]

theorem rotLeft_rotRight (v : Half) {n : Nat} (hn : n < 16) : rotLeft (rotRight v n) n = v := by
  refine BitVec.eq_of_getLsbD_eq fun k hk => ?_
  have hback : ((k + (16 - n)) % 16 + n) % 16 = k := by omega
  rw [rotLeft_eq_rotRight _ hn.le, getLsbD_rotRight _ (Nat.sub_le 16 n) hk,
    getLsbD_rotRight v hn.le (Nat.mod_lt _ (by decide)), hback]

theorem shiftAmount_lt (v : Half) : shiftAmount v < 16 := Nat.mod_lt _ (by decide)

/-- Two instructions in a row that rewrite `ra` from itself and the amount in another register leave
all registers as they were, where the second rewriting undoes the first. -/
theorem sameRegs_of_undone {i j : Instr} {f g : Half → Nat → Half} {ra rb : Reg} {s : State}
    (hi : ∀ s, exec i s = advance (s.setReg ra (f (s.reg ra) (shiftAmount (s.reg rb)))))
    (hj : ∀ s, exec j s = advance (s.setReg ra (g (s.reg ra) (shiftAmount (s.reg rb)))))
    (hgf : ∀ v n, n < 16 → g (f v n) n = v) (hne : ra ≠ rb) (hpc : s.pc + 2 < s.cfg.memSize) :
    ∃ t u, exec i s = .next t ∧ exec j t = .next u ∧ SameRegs s u := by
  obtain ⟨t, ht, hta, hto, -, htpc, -, -, -, -, -, hcfg⟩ := writesOnly_of_exec (by omega) (hi s)
  obtain ⟨u, hu, hua, huo, -, -, -⟩ :=
    writesOnly_of_exec (by rw [htpc, hcfg]; exact hpc) (hj t)
  refine ⟨t, u, ht, hu, fun q => ?_⟩
  by_cases hq : q = ra
  · rw [hq, hua, hta, hto rb hne.symm, hgf _ _ (shiftAmount_lt _)]
  · rw [huo q hq, hto q hq]

/-- Settles O31: ROR's bits go around the circle, and rotating left is rotating right the rest of it. -/
theorem rotatesMoveBitsInACircle : Obligations.RotatesMoveBitsInACircle := by
  intro ra rb s hpc
  have hn := shiftAmount_lt (s.reg rb)
  refine ⟨⟨_, writesOnly_of_exec hpc rfl, fun _ hk => getLsbD_rotLeft _ hn hk⟩,
    ⟨_, writesOnly_of_exec hpc rfl, fun _ hk => getLsbD_rotRight _ hn.le hk⟩,
    sameRegs_of_undone (fun _ => rfl) (fun _ => rfl) fun v _ hn => rotRight_rotLeft v hn,
    sameRegs_of_undone (fun _ => rfl) (fun _ => rfl) fun v _ hn => rotLeft_rotRight v hn⟩

end Sys2Proof.Machine
end

section
/-! PROOFS. The control transfer instructions (42_control_flow.md). Jumps and branches commit a copy
with the flags written at the next pc they choose; CALL and RET commit what a Push and a Pop leave, and
so RET right after CALL undoes it. -/

namespace Sys2Proof.Machine

/-! ### The rule that jumps and branches share -/

/-- An instruction that commits a copy with the flags written changes nothing else but pc. -/
theorem goesTo_of_exec {i : Instr} {n : Nat} {f : Flags} {s : State} (hn : n < s.cfg.memSize)
    (hexec : exec i s = commit n (s.setFlags f)) : Claims.GoesTo i n f s :=
  ⟨_, hexec.trans (commit_of_lt hn), rfl, rfl, fun _ => rfl, fun _ => rfl, rfl, rfl, rfl, rfl, rfl⟩

/-! ### JUMP and BEQ (R160, R161) -/

/-- Settles O32: JUMP commits at its address, with the flags as they are. -/
theorem jumpGoesToItsAddress : Obligations.JumpGoesToItsAddress :=
  fun _ _ => ⟨fun ha => goesTo_of_exec ha rfl, commit_of_le⟩

theorem exec_beq_of_zero {s : State} (a : Nat) (hz : s.flags.z = true) :
    exec (.beq a) s = commit a s :=
  congrArg (commit · s) (if_pos hz)

theorem exec_beq_of_not_zero {s : State} (a : Nat) (hz : s.flags.z = false) :
    exec (.beq a) s = advance s :=
  congrArg (commit · s) (if_neg (Bool.eq_false_iff.mp hz))

/-- Settles O33: the Zero flag chooses the one next pc that is checked. -/
theorem beqBranchesOnTheZeroFlag : Obligations.BeqBranchesOnTheZeroFlag := by
  intro a s
  refine ⟨fun hz ha => ?taken, fun hz ha => ?takenFault, fun hz hpc => ?untaken,
    fun hz hpc => ?untakenFault⟩
  case taken => exact goesTo_of_exec ha (exec_beq_of_zero a hz)
  case takenFault => exact (exec_beq_of_zero a hz).trans (commit_of_le ha)
  case untaken => exact goesTo_of_exec hpc (exec_beq_of_not_zero a hz)
  case untakenFault => exact (exec_beq_of_not_zero a hz).trans (advance_of_le hpc)

/-! ### BNE, BLT and JLE (R162 to R164) -/

theorem s16_sub_eq_zero_iff (a b : Half) : s16 a - s16 b = 0 ↔ a = b :=
  sub_eq_zero.trans BitVec.toInt_inj

theorem branchFlags_eq (f : Flags) (a b : Half) :
    branchFlags f a b = { f with n := decide (a.toInt < b.toInt), z := decide (a = b) } := by
  have hneg : s16 a - s16 b < 0 ↔ a.toInt < b.toInt := sub_neg
  rw [branchFlags, decide_eq_decide.mpr hneg, decide_eq_decide.mpr (s16_sub_eq_zero_iff a b)]

/-- A choice of the exact difference that is a choice of the two operands: the branch commits at the
next pc it chooses, with N and Z written either way. -/
theorem compareBranch_of_exec {i : Reg → Reg → Nat → Instr} {ofDiff : Int → Bool}
    {taken : Half → Half → Bool}
    (hexec : ∀ ra rb a s, exec (i ra rb a) s = compareBranch ofDiff ra rb a s)
    (htaken : ∀ a b : Half, ofDiff (s16 a - s16 b) = taken a b) : Claims.CompareBranch i taken := by
  intro ra rb a s n
  have hcommit := hexec ra rb a s
  rw [compareBranch, htaken, branchFlags_eq] at hcommit
  exact ⟨fun hn => goesTo_of_exec hn hcommit, fun hn => hcommit.trans (commit_of_le hn)⟩

/-- Settles O34: the sign of the exact difference is the comparison of the two signed values. -/
theorem compareBranchesWriteFlagsAndBranch : Obligations.CompareBranchesWriteFlagsAndBranch := by
  refine ⟨compareBranch_of_exec (ofDiff := fun d => decide (d ≠ 0)) (fun _ _ _ _ => rfl) ?bne,
    compareBranch_of_exec (ofDiff := fun d => decide (d < 0)) (fun _ _ _ _ => rfl) ?blt,
    compareBranch_of_exec (ofDiff := fun d => decide (d ≤ 0)) (fun _ _ _ _ => rfl) ?jle⟩
  case bne => exact fun a b => decide_eq_decide.mpr (not_congr (s16_sub_eq_zero_iff a b))
  case blt => exact fun _ _ => decide_eq_decide.mpr sub_neg
  case jle => exact fun _ _ => decide_eq_decide.mpr sub_nonpos

/-! ### An operation that raises its error -/

theorem attempt_of_error {α : Type} {x : Except Fault α} {e : Fault} {k : α → Result}
    (hx : x = .error e) : attempt x k = .fault e := by
  rw [hx, attempt_error]

theorem push_of_eq {s : State} (v : Word) (h : s.sp = s.cfg.memSize) :
    s.push v = .error .stackFull :=
  if_pos h

theorem pop_of_eq {s : State} (h : s.sp = s.cfg.stackBase) : s.pop = .error .stackEmpty :=
  if_pos h

/-! ### CALL (R165) -/

theorem zext32_toNat {n : Nat} (h : n < 2 ^ 32) : (zext32 n).toNat = n := by
  rw [zext32, if_pos h, BitVec.toNat_ofNat, Nat.mod_eq_of_lt h]

theorem exec_call_of_ne {s : State} (a : Nat) (h : s.sp ≠ s.cfg.memSize) :
    exec (.call a) s =
      commit a ((s.setMem (memSet s.mem s.sp (zext32 (s.pc + 1)))).setSp (s.sp + 1)) :=
  attempt_of_ok (push_of_ne _ h) rfl

/-- Settles O35: the Push writes the slot at the old SP, and its error comes before the check of pc. -/
theorem callPushesTheReturnAddress : Obligations.CallPushesTheReturnAddress := by
  intro a s
  refine ⟨fun hroom ha => ?completes, fun hfull => ?full, fun hroom ha => ?outside⟩
  case completes =>
    have hslot := memGet_memSet_same s.mem s.sp (zext32 (s.pc + 1))
    exact ⟨_, (exec_call_of_ne a hroom.ne).trans (commit_of_lt ha), rfl, rfl,
      fun hpc => (congrArg BitVec.toNat hslot).trans (zext32_toNat hpc),
      fun _ hb => memGet_memSet_other s.mem _ hb, fun _ => rfl, rfl, rfl, rfl, rfl, rfl⟩
  case full => exact attempt_of_error (push_of_eq _ hfull)
  case outside => exact (exec_call_of_ne a hroom.ne).trans (commit_of_le ha)

/-! ### RET (R166) -/

theorem exec_ret_of_ne {s : State} (h : s.sp ≠ s.cfg.stackBase) :
    exec .ret s = commit (memGet s.mem (s.sp - 1)).toNat
      ((s.setMem (memSet s.mem (s.sp - 1) 0)).setSp (s.sp - 1)) :=
  attempt_of_ok (pop_of_ne h) rfl

/-- Settles O36: the Pop clears the slot below SP, and its error comes before the check of the word. -/
theorem retGoesToThePoppedWord : Obligations.RetGoesToThePoppedWord := by
  intro s
  refine ⟨fun hocc hv => ?completes, fun hempty => ?empty, fun hocc hv => ?outside⟩
  case completes =>
    exact ⟨_, (exec_ret_of_ne hocc.ne').trans (commit_of_lt hv), rfl,
      Nat.sub_add_cancel (Nat.zero_lt_of_lt hocc), memGet_memSet_same s.mem _ 0,
      fun _ hb => memGet_memSet_other s.mem 0 hb, fun _ => rfl, rfl, rfl, rfl, rfl, rfl⟩
  case empty => exact attempt_of_error (pop_of_eq hempty)
  case outside => exact (exec_ret_of_ne hocc.ne').trans (commit_of_le hv)

/-! ### RET after CALL (R168) -/

theorem SameEngine.trans {s t u : State} (h : SameEngine s t) (k : SameEngine t u) :
    SameEngine s u := by
  obtain ⟨hrun, hmode, hcfg⟩ := h
  obtain ⟨krun, kmode, kcfg⟩ := k
  exact ⟨krun.trans hrun, kmode.trans hmode, kcfg.trans hcfg⟩

/-- Two runs that write the same word only, which reads at the end as before, leave all of memory. -/
theorem OnlyMem.sameMem_of_restored {a : Nat} {s t u : State} (h : OnlyMem a s t)
    (k : OnlyMem a t u) (ha : memGet u.mem a = memGet s.mem a) : SameMem s u := by
  intro b
  by_cases hb : b = a
  · rw [hb, ha]
  · exact (k b hb).trans (h b hb)

/-- Settles O37: RET pops the word that CALL pushed, and the slot it clears was free before the CALL,
so it read 0 (10_state.md R28). -/
theorem retUndoesCall : Obligations.RetUndoesCall := by
  intro a s hs hroom ha hpc
  obtain ⟨hcall, -, -⟩ := callPushesTheReturnAddress a s
  obtain ⟨t, ht, -, htsp, htop, htmem, htregs, htflags, htevents, hrun, hmode, hcfg⟩ :=
    hcall hroom ha
  obtain ⟨-, -, hbits⟩ := hs.cfgValid
  have hslot : t.sp - 1 = s.sp := by omega
  have hword : (memGet t.mem (t.sp - 1)).toNat = s.pc + 1 := by
    rw [hslot]
    exact htop (hpc.trans_le hbits)
  have hocc : t.cfg.stackBase < t.sp := by
    rw [hcfg, htsp]
    exact Nat.lt_succ_of_le hs.spLow
  obtain ⟨hret, -, -⟩ := retGoesToThePoppedWord t
  obtain ⟨u, hu, hupc, husp, hclear, humem, huregs, huflags, huevents, hueng⟩ :=
    hret hocc (by rw [hword, hcfg]; exact hpc)
  rw [hslot] at hclear humem
  have hmem : SameMem s u :=
    htmem.sameMem_of_restored humem (hclear.trans (hs.freeSlots s.sp le_rfl hroom).symm)
  exact ⟨t, u, ht, hu, hupc.trans hword, fun q => (huregs q).trans (htregs q),
    huflags.trans htflags, hmem, by omega, huevents.trans htevents,
    SameEngine.trans ⟨hrun, hmode, hcfg⟩ hueng⟩

end Sys2Proof.Machine
end

section
/-! PROOFS. The data movement instructions (43_data_movement.md). A register is stored as its sign
extension, which is a raw word with the register's pattern as its low half: so LOAD and POP give the
pattern back. -/

namespace Sys2Proof.Machine

/-! ### MOVE and LOADR (R183, R184) -/

/-- Settles O40: both advance a copy with the second register's value in the first. -/
theorem moveAndLoadrCopyTheSecondRegister : Obligations.MoveAndLoadrCopyTheSecondRegister :=
  fun _ _ _ hpc => ⟨writesOnly_of_exec hpc rfl, writesOnly_of_exec hpc rfl⟩

/-! ### The word a register is stored as (R185) -/

theorem sext32_toInt (v : Half) : (sext32 v).toInt = v.toInt :=
  BitVec.toInt_signExtend_of_le (by decide)

theorem low16_sext32 (v : Half) : low16 (sext32 v) = v := by
  refine BitVec.eq_of_getLsbD_eq fun k hk => ?_
  have hk32 : k < 32 := hk.trans (by decide)
  simp only [low16, sext32, BitVec.getLsbD_setWidth, BitVec.getLsbD_signExtend, hk, hk32,
    decide_true, Bool.true_and, if_true]

/-- The sign extension fills the upper half with copies of the sign bit. -/
theorem sext32_toNat_range (v : Half) :
    (sext32 v).toNat < 2 ^ 15 ∨ 0xFFFF8000 ≤ (sext32 v).toNat := by
  have hint := sext32_toInt v
  have hlow := BitVec.le_toInt v
  have hhigh := BitVec.toInt_lt (x := v)
  rw [BitVec.toInt_eq_toNat_cond] at hint
  split at hint <;> omega

theorem isLiteral_sext32 (v : Half) : isLiteral (sext32 v) = false := by
  have hrange := sext32_toNat_range v
  rw [Bool.eq_false_iff, ne_eq, isLiteral_iff]
  omega

theorem loadValue_sext32 (v : Half) : loadValue (sext32 v) = .ok v := by
  have hraw : ¬ isLiteral (sext32 v) = true := Bool.eq_false_iff.mp (isLiteral_sext32 v)
  rw [loadValue, if_neg hraw, low16_sext32]

/-! ### STORE and STORER (R181, R182) -/

theorem exec_eq_storeReg {i : Instr} {ra : Reg} {a : Nat} (s : State)
    (hi : i ∈ [Instr.store ra a, .storer ra a]) : exec i s = storeReg ra a s := by
  rcases List.mem_pair.mp hi with rfl | rfl
  · rfl
  · rfl

theorem memWrite_of_le {s : State} {a : Nat} (v : Word) (h : s.cfg.memSize ≤ a) :
    s.memWrite a v = .error (.addressOutOfRange a) :=
  if_pos h

theorem memWrite_of_stack {s : State} {a : Nat} (v : Word) (hlow : s.cfg.stackBase ≤ a)
    (hhigh : a < s.cfg.memSize) : s.memWrite a v = .error (.stackRegionViolation a) :=
  (if_neg hhigh.not_ge).trans (if_pos hlow)

/-- Settles O39: the ordinary write, whose own checks are the two errors. -/
theorem storesWriteTheSignedRegisterValue : Obligations.StoresWriteTheSignedRegisterValue := by
  intro ra a s i hi
  have hexec := exec_eq_storeReg s hi
  refine ⟨fun ha hpc => ?completes, fun ha => ?outside, fun hlow hhigh => ?stackRegion⟩
  case completes =>
    have hwrite := memWrite_of_lt (sext32 (s.reg ra)) (ha.trans_le (stackBase_le_memSize s.cfg)) ha
    have hword := memGet_memSet_same s.mem a (sext32 (s.reg ra))
    exact ⟨_, hexec.trans (attempt_of_ok hwrite (advance_of_lt hpc)),
      (congrArg BitVec.toInt hword).trans (sext32_toInt _),
      fun _ hb => memGet_memSet_other s.mem _ hb, fun _ => rfl, rfl, rfl, rfl, rfl, rfl, rfl, rfl⟩
  case outside => exact hexec.trans (attempt_of_error (memWrite_of_le _ ha))
  case stackRegion => exact hexec.trans (attempt_of_error (memWrite_of_stack _ hlow hhigh))

/-! ### The round trip (R185) -/

theorem exec_push_of_ne {s : State} (ra : Reg) (h : s.sp ≠ s.cfg.memSize) :
    exec (.push ra) s =
      advance ((s.setMem (memSet s.mem s.sp (sext32 (s.reg ra)))).setSp (s.sp + 1)) :=
  attempt_of_ok (push_of_ne _ h) rfl

theorem exec_pop_of_ne {s : State} (ra : Reg) (h : s.sp ≠ s.cfg.stackBase) :
    exec (.pop ra) s =
      advance (((s.setMem (memSet s.mem (s.sp - 1) 0)).setSp (s.sp - 1)).setReg ra
        (low16 (memGet s.mem (s.sp - 1)))) :=
  attempt_of_ok (pop_of_ne h) rfl

/-- A completed store leaves a word with the register's signed value, and only its sign extension has
that value: LOAD reads it as the register's pattern. -/
theorem load_of_stores {i : Instr} {ra : Reg} {a : Nat} {s : State} (rb : Reg)
    (ha : a < s.cfg.memSize) (hpc : s.pc + 2 < s.cfg.memSize) (h : Claims.Stores i ra a s) :
    ∃ t u, exec i s = .next t ∧ exec (.load rb a) t = .next u ∧ u.reg rb = s.reg ra := by
  obtain ⟨t, ht, hint, -, -, -, htpc, -, -, -, -, hcfg⟩ := h
  have hword : memGet t.mem a = sext32 (s.reg ra) :=
    BitVec.eq_of_toInt_eq (hint.trans (sext32_toInt _).symm)
  have hvalue : loadValue (memGet t.mem a) = .ok (s.reg ra) := by
    rw [hword, loadValue_sext32]
  obtain ⟨u, hu, hureg, -⟩ :=
    loads_of_loadValue (ra := rb) (hcfg ▸ ha) (by rw [htpc, hcfg]; exact hpc) hvalue
  exact ⟨t, u, ht, hu, hureg⟩

theorem exec_push_completes {s : State} (ra : Reg) (hroom : s.sp < s.cfg.memSize)
    (hpc : s.pc + 1 < s.cfg.memSize) :
    ∃ t, exec (.push ra) s = .next t ∧ t.pc = s.pc + 1 ∧ t.sp = s.sp + 1 ∧
      memGet t.mem s.sp = sext32 (s.reg ra) ∧ t.cfg = s.cfg :=
  ⟨_, (exec_push_of_ne ra hroom.ne).trans (advance_of_lt hpc), rfl, rfl,
    memGet_memSet_same s.mem s.sp _, rfl⟩

theorem exec_pop_completes {s : State} (ra : Reg) (hocc : s.cfg.stackBase < s.sp)
    (hpc : s.pc + 1 < s.cfg.memSize) :
    ∃ t, exec (.pop ra) s = .next t ∧ t.reg ra = low16 (memGet s.mem (s.sp - 1)) :=
  ⟨_, (exec_pop_of_ne ra hocc.ne').trans (advance_of_lt hpc), setReg_reg_same _ ra _⟩

/-- POP reads the slot that PUSH wrote, the one below the new SP. -/
theorem pop_of_push {s : State} (ra rb : Reg) (hlow : s.cfg.stackBase ≤ s.sp)
    (hroom : s.sp < s.cfg.memSize) (hpc : s.pc + 2 < s.cfg.memSize) :
    ∃ t u, exec (.push ra) s = .next t ∧ exec (.pop rb) t = .next u ∧ u.reg rb = s.reg ra := by
  obtain ⟨t, ht, htpc, htsp, htop, hcfg⟩ := exec_push_completes ra hroom (Nat.lt_of_succ_lt hpc)
  have hocc : t.cfg.stackBase < t.sp := by
    rw [hcfg, htsp]
    exact Nat.lt_succ_of_le hlow
  obtain ⟨u, hu, hureg⟩ := exec_pop_completes rb hocc (by rw [htpc, hcfg]; exact hpc)
  have hslot : t.sp - 1 = s.sp := by omega
  rw [hslot, htop, low16_sext32] at hureg
  exact ⟨t, u, ht, hu, hureg⟩

/-- Settles O41: both ways back from memory undo the sign extension. -/
theorem registerValuesRoundTripThroughMemory : Obligations.RegisterValuesRoundTripThroughMemory := by
  refine ⟨fun ra rb a s ha hpc i hi => ?load, fun ra rb s hlow hroom hpc => ?pop, fun v => ?word⟩
  case load =>
    obtain ⟨hstores, -, -⟩ := storesWriteTheSignedRegisterValue ra a s i hi
    exact load_of_stores rb (ha.trans_le (stackBase_le_memSize s.cfg)) hpc
      (hstores ha (Nat.lt_of_succ_lt hpc))
  case pop => exact pop_of_push ra rb hlow hroom hpc
  case word => exact ⟨isLiteral_sext32 v, sext32_toNat_range v⟩

end Sys2Proof.Machine
end

section
/-! PROOFS. The input, output and stack instructions (44_io_stack.md). OUT, PUSH and POP advance a
handler's copy; IN leaves a waiting engine, which the rules of the host operations then complete. -/

namespace Sys2Proof.Machine

/-! ### IN (R200) -/

/-- Settles O43: IN only sets the run state, so what the host then sees is the treatment of an engine
that is not Running (R115) and of one that waits for this register (R116). -/
theorem inSuspendsUntilItsInputIsProvided : Obligations.InSuspendsUntilItsInputIsProvided := by
  intro ra s
  have hwaits : (s.setRun (.awaitingInput ra s.mode)).run ≠ .running := nofun
  obtain ⟨-, hstep, hloop⟩ := engineNotRunningDoesNothing _ hwaits
  refine ⟨_, rfl, rfl, rfl, fun _ => rfl, rfl, fun _ => rfl, rfl, rfl, rfl, rfl, hstep,
    fun i v fuel => ?_⟩
  obtain ⟨-, hprovide⟩ := provideInputCompletesOnlyThePendingIn i v fuel
    (s.setRun (.awaitingInput ra s.mode))
  obtain ⟨hwrong, hend, haccept⟩ := hprovide ra s.mode rfl
  exact ⟨hloop fuel, fun hi => hwrong (.inr (.inr hi)), hend, haccept⟩

/-! ### OUT (R201) -/

/-- Settles O45: the copy that OUT advances differs from the state in its last event only. -/
theorem outEmitsTheSignedValue : Obligations.OutEmitsTheSignedValue := fun _ _ hpc =>
  ⟨_, advance_of_lt hpc, rfl, fun _ => rfl, rfl, rfl, fun _ => rfl, rfl, rfl, rfl, rfl⟩

/-! ### PUSH (R202) -/

/-- Settles O46: the Push writes the sign extension to the slot at the old SP. -/
theorem pushStoresAtTheStackPointer : Obligations.PushStoresAtTheStackPointer := by
  intro ra s
  refine ⟨fun hroom hpc => ?completes, fun hfull => ?full⟩
  case completes =>
    have hslot := memGet_memSet_same s.mem s.sp (sext32 (s.reg ra))
    exact ⟨_, (exec_push_of_ne ra hroom.ne).trans (advance_of_lt hpc),
      (congrArg BitVec.toInt hslot).trans (sext32_toInt _),
      fun _ hb => memGet_memSet_other s.mem _ hb, rfl, fun _ => rfl, rfl, rfl, rfl, rfl, rfl, rfl⟩
  case full => exact attempt_of_error (push_of_eq _ hfull)

/-! ### POP (R203) -/

theorem low16_eq_ofNat (w : Word) : low16 w = BitVec.ofNat 16 w.toNat :=
  (BitVec.ofNat_toNat 16 w).symm

/-- Settles O47: the Pop clears the slot below SP, and the register gets the low half of its word. -/
theorem popTakesTheTopSlotAndClearsIt : Obligations.PopTakesTheTopSlotAndClearsIt := by
  intro ra s
  refine ⟨fun hocc hpc => ?completes, fun hempty => ?empty⟩
  case completes =>
    exact ⟨_, (exec_pop_of_ne ra hocc.ne').trans (advance_of_lt hpc),
      (setReg_reg_same _ ra _).trans (low16_eq_ofNat _), fun _ hq => setReg_reg_other _ _ hq,
      Nat.sub_add_cancel (Nat.zero_lt_of_lt hocc), memGet_memSet_same s.mem _ 0,
      fun _ hb => memGet_memSet_other s.mem 0 hb, rfl, rfl, rfl, rfl, rfl, rfl⟩
  case empty => exact attempt_of_error (pop_of_eq hempty)

end Sys2Proof.Machine
end

section
/-! PROOFS. CMP, CLR and HALT (45_compare_misc.md). CMP and CLR commit at the next address, CMP with
the flags written; HALT leaves an engine that is not Running, which the rules of the host operations
then describe. -/

namespace Sys2Proof.Machine

/-! ### CMP (R220) -/

theorem cmpFlags_eq (mode : CarryMode) (a b : Half) :
    cmpFlags mode a b =
      { c := cmpCarry mode a b
        z := decide (a = b)
        n := decide (a.toInt < b.toInt)
        v := decide (a.toInt - b.toInt < -32768 ∨ a.toInt - b.toInt > 32767) } := by
  have hneg : s16 a - s16 b < 0 ↔ a.toInt < b.toInt := sub_neg
  rw [cmpFlags, outside16_eq, decide_eq_decide.mpr hneg,
    decide_eq_decide.mpr (s16_sub_eq_zero_iff a b)]
  rfl

theorem cmpFlags_c_of_asNegative {mode : CarryMode} (h : mode = .asNegative) (a b : Half) :
    (cmpFlags mode a b).c = (cmpFlags mode a b).n := by
  rw [h]
  rfl

theorem cmpFlags_c_of_unsignedBorrow {mode : CarryMode} (h : mode = .unsignedBorrow) (a b : Half) :
    (cmpFlags mode a b).c = decide (a.toNat < b.toNat) := by
  rw [h]
  rfl

/-- Settles O49: CMP goes to the next address with all four flags written, and Carry alone depends on
the mode. -/
theorem cmpWritesAllFourFlags : Obligations.CmpWritesAllFourFlags := by
  intro ra rb s hpc
  obtain ⟨t, hexec, hnext, hflags, hregs, hquiet⟩ := goesTo_of_exec (i := .cmp ra rb) hpc rfl
  have hvalues := hflags.trans (cmpFlags_eq s.cfg.cmpCarry (s.reg ra) (s.reg rb))
  refine ⟨t, hexec, congrArg Flags.z hvalues, congrArg Flags.n hvalues, fun hmode => ?asNegative,
    fun hmode => ?unsignedBorrow, congrArg Flags.v hvalues, hregs, hnext, hquiet⟩
  case asNegative =>
    rw [hflags]
    exact cmpFlags_c_of_asNegative hmode _ _
  case unsignedBorrow =>
    rw [hflags]
    exact cmpFlags_c_of_unsignedBorrow hmode _ _

/-! ### CLR (R221) -/

/-- Settles O50: CLR advances the state as it is, whichever register it names. -/
theorem clrChangesNothingButPc : Obligations.ClrChangesNothingButPc := fun _ _ =>
  ⟨fun hpc => goesTo_of_exec hpc rfl, advance_of_le⟩

/-! ### HALT (R223) -/

/-- Settles O54: HALT only sets the run state, so what follows is the treatment of an engine that is
neither Running (R115) nor waiting (R116); a reset and an accepted image set the run state again. -/
theorem haltStopsAtItsOwnAddress : Obligations.HaltStopsAtItsOwnAddress := by
  intro s
  have hhalted : (s.setRun .halted).run ≠ .running := nofun
  obtain ⟨-, hstep, hloop⟩ := engineNotRunningDoesNothing _ hhalted
  refine ⟨_, rfl, rfl, rfl, fun _ => rfl, rfl, fun _ => rfl, rfl, rfl, rfl, rfl, hstep, hloop,
    fun i v fuel => ?refused, rfl, fun base words hfits => ?accepted⟩
  case refused =>
    obtain ⟨hrefused, -⟩ := provideInputCompletesOnlyThePendingIn i v fuel (s.setRun .halted)
    exact hrefused fun _ _ => nofun
  case accepted =>
    obtain ⟨hload, -, -⟩ := loadImagePlacesAllWordsOrNone base words (s.setRun .halted)
    obtain ⟨t, hcall, -, -, -, hrunning, -⟩ := hload hfits
    rw [hcall]
    exact hrunning

end Sys2Proof.Machine
end

section
/-! PROOFS. The errors (60_exceptions.md R240 to R244): the cause of each error that an instruction
raises, read off the shared operations of its handler, and the order in which a handler meets them. -/

namespace Sys2Proof.Machine

/-! ### The errors of the Typed-Value Codec (30_encoding.md R90, R93) -/

theorem decodeTyped_error {tag : BitVec 6} {pay : BitVec 21} {e : Fault}
    (h : decodeTyped tag pay = .error e) :
    e = .invalidEncoding tag pay ∧
      (tag.toNat = 0 ∨ 6 ≤ tag.toNat ∨ (tag.toNat = 5 ∧ 0x10FFFF < pay.toNat)) := by
  unfold decodeTyped at h
  split at h
  case h_1 | h_2 | h_3 | h_4 => exact nomatch h
  case h_5 htag =>
    split at h
    · next hpay =>
      injection h with h
      exact ⟨h.symm, .inr (.inr ⟨htag, hpay⟩)⟩
    · exact nomatch h
  case h_6 h1 h2 h3 h4 h5 =>
    injection h with h
    rw [imp_false] at h1 h2 h3 h4 h5
    exact ⟨h.symm, by omega⟩

theorem decodeTyped_eq_float {tag : BitVec 6} {pay p : BitVec 21}
    (h : decodeTyped tag pay = .ok (.float p)) : tag = 4 ∧ pay = p := by
  unfold decodeTyped at h
  split at h
  case h_4 htag =>
    injection h with h
    injection h with h
    exact ⟨BitVec.eq_of_toNat_eq htag, h⟩
  case h_5 => split at h <;> exact nomatch h
  all_goals exact nomatch h

theorem toRegister_error {tv : TypedValue} {e : Fault} (h : toRegister tv = .error e) :
    ∃ p, tv = .float p ∧ e = .invalidEncoding 4 p := by
  cases tv with
  | float p =>
    injection h with h
    exact ⟨p, rfl, h.symm⟩
  | boolean | natural | integer | char => exact nomatch h

/-- A literal's opcode bits are 0, so its tag and payload are all of the word (R88, R94). -/
theorem literal_toNat {w : Word} (h : isLiteral w = true) :
    1 ≤ (fieldsOf w).tag.toNat ∧ (fieldsOf w).tag.toNat ≤ 5 ∧
      w.toNat = (fieldsOf w).tag.toNat * 2 ^ 21 + (fieldsOf w).pay.toNat := by
  rw [isLiteral_iff] at h
  rw [fieldsOf_tag_toNat, fieldsOf_pay_toNat]
  unfold slice
  omega

/-- LOAD's conversion fails only on a Float literal and on a Char literal outside Unicode (R180). -/
theorem loadValue_error {w : Word} {e : Fault} (h : loadValue w = .error e) :
    ∃ tag pay, e = .invalidEncoding tag pay ∧
      (tag.toNat = 4 ∨ (tag.toNat = 5 ∧ 0x10FFFF < pay.toNat)) ∧
      w.toNat = tag.toNat * 2 ^ 21 + pay.toNat := by
  unfold loadValue at h
  split at h
  · next hlit =>
    obtain ⟨hlow, hhigh, hword⟩ := literal_toNat hlit
    split at h
    · next tv htv =>
      obtain ⟨p, rfl, rfl⟩ := toRegister_error h
      obtain ⟨htag, hpay⟩ := decodeTyped_eq_float htv
      rw [htag, hpay] at hword
      exact ⟨4, p, rfl, .inl rfl, hword⟩
    · next d hd =>
      injection h with h
      obtain ⟨hinvalid, htag⟩ := decodeTyped_error hd
      exact ⟨_, _, h.symm.trans hinvalid, by omega, hword⟩
  · exact nomatch h

/-! ### What a result can raise -/

/-- A result that is no refusal, and whose error, if it is one, meets `P`. -/
def RaisesOnly (P : Fault → Prop) (r : Result) : Prop :=
  (∀ e, r = .fault e → P e) ∧ ∀ q, r ≠ .refused q

theorem raisesOnly_next (P : Fault → Prop) (t : State) : RaisesOnly P (.next t) := ⟨nofun, nofun⟩

theorem raisesOnly_raise {P : Fault → Prop} {e : Fault} (h : P e) : RaisesOnly P (raise e) := by
  refine ⟨fun d hd => ?_, nofun⟩
  injection hd with hd
  exact hd ▸ h

theorem raisesOnly_attempt {α : Type} {P : Fault → Prop} {x : Except Fault α} {k : α → Result}
    (herror : ∀ e, x = .error e → P e) (hok : ∀ a, x = .ok a → RaisesOnly P (k a)) :
    RaisesOnly P (attempt x k) := by
  cases x with
  | ok a => exact hok a rfl
  | error e => exact raisesOnly_raise (herror e rfl)

/-! ### The causes of errors (R240) -/

/-- Why instruction `i` raises an error in the state `s`, by the error it raises. -/
inductive FaultCause (i : Instr) (s : State) : Fault → Prop where
  | zeroDivisor {ra rb rc : Reg} (hi : i = .div ra rb rc) (hb : s.reg rb = 0) :
      FaultCause i s .divisionByZero
  | full (hsp : s.sp = s.cfg.memSize) (hi : (∃ ra, i = .push ra) ∨ ∃ a, i = .call a) :
      FaultCause i s .stackFull
  | empty (hsp : s.sp = s.cfg.stackBase) (hi : (∃ ra, i = .pop ra) ∨ i = .ret) :
      FaultCause i s .stackEmpty
  | stackStore {ra : Reg} {a : Nat} (hlow : s.cfg.stackBase ≤ a) (hhigh : a < s.cfg.memSize)
      (hi : i = .store ra a ∨ i = .storer ra a) : FaultCause i s (.stackRegionViolation a)
  | immediate {tag : BitVec 6} {pay : BitVec 21} (hi : i = .nop tag pay)
      (htag : tag.toNat = 0 ∨ 6 ≤ tag.toNat ∨ (tag.toNat = 5 ∧ 0x10FFFF < pay.toNat)) :
      FaultCause i s (.invalidEncoding tag pay)
  | literal {tag : BitVec 6} {pay : BitVec 21} {ra : Reg} {a : Nat} (hi : i = .load ra a)
      (ha : a < s.cfg.memSize) (htag : tag.toNat = 4 ∨ (tag.toNat = 5 ∧ 0x10FFFF < pay.toNat))
      (hword : (memGet s.mem a).toNat = tag.toNat * 2 ^ 21 + pay.toNat) :
      FaultCause i s (.invalidEncoding tag pay)
  | outside {a : Nat} (ha : s.cfg.memSize ≤ a) (hin : ∀ ra, i ≠ .inp ra) (hhalt : i ≠ .halt) :
      FaultCause i s (.addressOutOfRange a)

section
variable {i : Instr} {s : State}

theorem raisesOnly_commit {t : State} {n : Nat} (hcfg : t.cfg = s.cfg) (hin : ∀ ra, i ≠ .inp ra)
    (hhalt : i ≠ .halt) : RaisesOnly (FaultCause i s) (commit n t) := by
  unfold commit
  split
  · next hn => exact raisesOnly_raise (.outside (hcfg ▸ hn) hin hhalt)
  · exact raisesOnly_next _ _

theorem raisesOnly_push {v : Word} {k : State → Result}
    (hi : (∃ ra, i = .push ra) ∨ ∃ a, i = .call a)
    (hk : ∀ t : State, t.cfg = s.cfg → RaisesOnly (FaultCause i s) (k t)) :
    RaisesOnly (FaultCause i s) (attempt (s.push v) k) := by
  refine raisesOnly_attempt (fun e he => ?_) fun t ht => ?_
  · obtain ⟨hsp, rfl⟩ := push_error he
    exact .full hsp hi
  · obtain ⟨-, rfl⟩ := push_ok ht
    exact hk _ rfl

theorem raisesOnly_pop {k : Word × State → Result} (hi : (∃ ra, i = .pop ra) ∨ i = .ret)
    (hk : ∀ (w : Word) (t : State), t.cfg = s.cfg → RaisesOnly (FaultCause i s) (k (w, t))) :
    RaisesOnly (FaultCause i s) (attempt s.pop k) := by
  refine raisesOnly_attempt (fun e he => ?_) fun ⟨w, t⟩ ht => ?_
  · obtain ⟨hsp, rfl⟩ := pop_error he
    exact .empty hsp hi
  · obtain ⟨-, -, rfl⟩ := pop_ok ht
    exact hk w _ rfl

theorem raisesOnly_storeReg {ra : Reg} {a : Nat} (hi : i = .store ra a ∨ i = .storer ra a) :
    RaisesOnly (FaultCause i s) (storeReg ra a s) := by
  have hin : ∀ r, i ≠ .inp r := by rcases hi with rfl | rfl <;> exact nofun
  have hhalt : i ≠ .halt := by rcases hi with rfl | rfl <;> exact nofun
  refine raisesOnly_attempt (fun e he => ?_) fun t ht => ?_
  · obtain ⟨ha, rfl⟩ | ⟨ha, hbase, rfl⟩ := memWrite_error he
    · exact .outside ha hin hhalt
    · exact .stackStore hbase ha hi
  · obtain ⟨-, -, rfl⟩ := memWrite_ok ht
    exact raisesOnly_commit rfl hin hhalt

end

/-- Every instruction raises only errors that it has a cause for, and none refuses. -/
theorem exec_raisesOnly (i : Instr) (s : State) : RaisesOnly (FaultCause i s) (exec i s) := by
  cases i with
  | inp | halt => exact raisesOnly_next _ _
  | add | sub | mul | and | or | nor | not | shl | shr | rol | ror | move | loadr | out | cmp | clr
  | jump | beq | bne | blt | jle => exact raisesOnly_commit rfl nofun nofun
  | div =>
    rw [exec, execDiv]
    split
    · next hb => exact raisesOnly_raise (.zeroDivisor rfl ((s16_eq_zero_iff _).mp hb))
    · exact raisesOnly_commit rfl nofun nofun
  | nop =>
    refine raisesOnly_attempt (fun e he => ?_) fun _ _ => raisesOnly_commit rfl nofun nofun
    obtain ⟨rfl, htag⟩ := decodeTyped_error he
    exact .immediate rfl htag
  | load =>
    refine raisesOnly_attempt (fun e he => ?_) fun w hw =>
      raisesOnly_attempt (fun e he => ?_) fun _ _ => raisesOnly_commit rfl nofun nofun
    · obtain ⟨ha, rfl⟩ := memRead_error he
      exact .outside ha nofun nofun
    · obtain ⟨ha, rfl⟩ := memRead_ok hw
      obtain ⟨tag, pay, rfl, htag, hword⟩ := loadValue_error he
      exact .literal rfl ha htag hword
  | store => exact raisesOnly_storeReg (.inl rfl)
  | storer => exact raisesOnly_storeReg (.inr rfl)
  | push => exact raisesOnly_push (.inl ⟨_, rfl⟩) fun _ ht => raisesOnly_commit ht nofun nofun
  | call => exact raisesOnly_push (.inr ⟨_, rfl⟩) fun _ ht => raisesOnly_commit ht nofun nofun
  | pop => exact raisesOnly_pop (.inl ⟨_, rfl⟩) fun _ _ ht => raisesOnly_commit ht nofun nofun
  | ret => exact raisesOnly_pop (.inr rfl) fun _ _ ht => raisesOnly_commit ht nofun nofun

/-- Settles O16: an error has a cause, and each kind of error has only the causes named for it. -/
theorem errorsComeOnlyFromTheirInstructions : Obligations.ErrorsComeOnlyFromTheirInstructions := by
  intro i s
  obtain ⟨hcause, hrefused⟩ := exec_raisesOnly i s
  refine ⟨fun h => ?zeroDivisor, fun h => ?full, fun h => ?empty, fun a h => ?stackStore,
    fun tag pay h => ?invalid, fun a h => ?outside, fun h => ?unknownOpcode,
    fun _ h => ?registerIndex, hrefused⟩
  case zeroDivisor => cases hcause _ h with | zeroDivisor hi hb => exact ⟨_, _, _, hi, hb⟩
  case full => cases hcause _ h with | full hsp hi => exact ⟨hsp, hi⟩
  case empty => cases hcause _ h with | empty hsp hi => exact ⟨hsp, hi⟩
  case stackStore =>
    cases hcause _ h with | stackStore hlow hhigh hi => exact ⟨hlow, hhigh, _, hi⟩
  case invalid =>
    cases hcause _ h with
    | immediate hi htag => exact .inl ⟨hi, htag⟩
    | literal hi ha htag hword => exact .inr ⟨htag, _, _, hi, ha, hword⟩
  case outside => cases hcause _ h with | outside ha hin hhalt => exact ⟨ha, hin, hhalt⟩
  case unknownOpcode | registerIndex => exact nomatch hcause _ h

/-! ### The order of the checks (R244) -/

/-- Settles O18: a handler ends at the first of its operations that raises, so no later check, of a
literal, of the stack region or of the next pc, is reached. -/
theorem errorsComeInTheHandlersOrder : Obligations.ErrorsComeInTheHandlersOrder := by
  intro ra rb rc a tag pay e s
  refine ⟨fun ha => ?loadAddress, exec_load_fault ra, fun ha => ?storeAddress,
    fun hlow hhigh => ?stackRegion, fun hb => ?divisor, fun hfull => ?full, fun hempty => ?empty,
    fun hroom ha => ?callTarget, fun hocc hv => ?retTarget, exec_nop_fault s⟩
  case loadAddress => exact attempt_of_error (memRead_of_le ha)
  case storeAddress =>
    have hstore : storeReg ra a s = .fault (.addressOutOfRange a) :=
      attempt_of_error (memWrite_of_le _ ha)
    exact ⟨hstore, hstore⟩
  case stackRegion =>
    have hstore : storeReg ra a s = .fault (.stackRegionViolation a) :=
      attempt_of_error (memWrite_of_stack _ hlow hhigh)
    exact ⟨hstore, hstore⟩
  case divisor => exact if_pos ((s16_eq_zero_iff _).mpr hb)
  case full => exact ⟨attempt_of_error (push_of_eq _ hfull), attempt_of_error (push_of_eq _ hfull)⟩
  case empty => exact ⟨attempt_of_error (pop_of_eq hempty), attempt_of_error (pop_of_eq hempty)⟩
  case callTarget => exact (exec_call_of_ne a hroom).trans (commit_of_le ha)
  case retTarget => exact (exec_ret_of_ne hocc).trans (commit_of_le hv)

end Sys2Proof.Machine
end

section
/-! PROOFS. The launch after reset (70_reset_and_hazards.md R270 to R274): with no image loaded the
memory reads 0 at the pc, which a Step cannot run and the run loop takes for its sentinel; an accepted
image makes the launch clean. -/

namespace Sys2Proof.Machine

/-! ### Straight after reset (R271) -/

theorem decode_zero : decode 0 = .nop 0 0 := rfl

/-- The word 0 is a NOP with the reserved tag 0 (30_encoding.md R90, 45_compare_misc.md R222). -/
theorem step_fault_of_zero_word {s : State} (hrun : s.run = .running) (hpc : s.pc < s.cfg.memSize)
    (h0 : memGet s.mem s.pc = 0) : step s = .fault (.invalidEncoding 0 0) := by
  rw [step_of_running hrun hpc, h0, decode_zero]
  exact exec_nop_fault s (decodeTyped_reserved 0 (.inl rfl))

/-- Settles O59: the parameters are legal, so address 0 is inside memory, and it holds 0. -/
theorem firstStepAfterResetFaults : Obligations.FirstStepAfterResetFaults := by
  intro c hc
  have hzero : memGet (State.ofConfig c).mem (State.ofConfig c).pc = 0 := rfl
  have hstep : step (State.ofConfig c) = .fault (.invalidEncoding 0 0) :=
    step_fault_of_zero_word rfl (ofConfig_inv hc).pcInside hzero
  refine ⟨hstep, hostStep_of_fault hstep, fun fuel => ?_⟩
  exact (runToHaltOrInput_of_running (fuel + 1) rfl).trans (runLoop_succ_of_sentinel fuel hzero)

/-! ### A clean launch (R274) -/

/-- Settles O56: `load_image` sets the run state, pc and the words of the image, and keeps SP, the
events and every other word as reset left them. -/
theorem resetThenLoadImageIsACleanLaunch : Obligations.ResetThenLoadImageIsACleanLaunch := by
  intro base words s hfits
  obtain ⟨hload, -, -⟩ := loadImagePlacesAllWordsOrNone base words (State.ofConfig s.cfg)
  obtain ⟨t, hcall, himage, hothers, hpc, hrun, -, -, hsp, hevents, -, hcfg⟩ := hload hfits
  have hempty : t.sp = t.cfg.stackBase := hsp.trans (congrArg Config.stackBase hcfg.symm)
  exact ⟨t, hcall, {
    running := hrun
    pcBase := hpc
    stackEmpty := hempty
    image := himage
    others := hothers
    noEvents := hevents }⟩

end Sys2Proof.Machine
end
